-- ==== Sys2Proof/Word.lean ====
section
/-! DEFINITION. The word types of the CORE (00_scope.md R7, R11): an output word, register or operand, a 16-bit
sample, a byte. -/

namespace Sys2Proof

/-- A 32-bit word: a command word, its operand, a register, an output word (R7, R72). -/
abbrev Word := BitVec 32

/-- A 16-bit input sample, as raw bits (R7, R75). -/
abbrev Half := BitVec 16

/-- A byte of the sample buffer or of the output (R7). -/
abbrev Byte := BitVec 8

/-- A register address, the field RA (R8, R73). -/
abbrev RegAddr := BitVec 8

end Sys2Proof
end

