-- ==== Sys2Proof/Syntax.lean ====
section
/-! DEFINITION. The commands of the CORE: one constructor of `Instr` per row of the opcode table (30_encoding.md R76). -/

namespace Sys2Proof

/-- The three regions, in their processing order (00_scope.md R15). -/
inductive Region where
  | attack
  | loop
  | decay
  deriving DecidableEq, Repr

/-- The two encoding modes (00_scope.md R4, 10_state.md R23): `MODE` 0 is PCM, 1 is µ-law. -/
inductive Mode where
  | pcm
  | mulaw
  deriving DecidableEq, Repr

/-- A decoded command. The operand `dat` is an argument of the three commands that use it (R79). -/
inductive Instr where
  /-- NOP: no operation (R100). -/
  | nop
  /-- CLR: clear the packer state and the sticky status (R101). -/
  | clr
  /-- WREG: write `dat` to the register at `ra` (R102). -/
  | wreg (ra : RegAddr) (dat : Word)
  /-- RREG: read the register at `ra` (R103). -/
  | rreg (ra : RegAddr)
  /-- SEG: run the region alignment calculator (R117). -/
  | seg
  /-- PADQ: query the pad count of `n` (R118). -/
  | padq (n : Word)
  /-- WCQ: query the word count of `n` in the live mode (R119). -/
  | wcq (n : Word)
  /-- PCM: push one sample as two raw bytes (R133). -/
  | pcm (x : Half)
  /-- MULAW: push one µ-law encoded sample (R134). -/
  | mulaw (x : Half)
  /-- ENCQ: query the µ-law code of one sample (R135). -/
  | encq (x : Half)
  /-- PUSHB: push one raw byte (R154). -/
  | pushb (b : Byte)
  /-- PAD: push a region's pad bytes (R155). -/
  | pad (r : Region)
  /-- HDR: write a region's header word (R157). -/
  | hdr (r : Region)
  /-- REGION: encode one region from the sample buffer (R170). -/
  | region (r : Region)
  /-- EXPORT: one complete export run (R172). -/
  | exportRun
  deriving DecidableEq, Repr

end Sys2Proof
end

