-- ==== Sys2Proof/Machine/RegMap.lean ====
section
/-! DEFINITION. The register space (10_state.md R41): the names, their addresses and their access rights. -/

namespace Sys2Proof.Machine

/-- The registers of the register map, in the order of their addresses (R41). -/
inductive RegName where
  | ctrl | status | startOff | endOff | sloop | eloop | dur | ldur | acc
  | rb (r : Region) | re (r : Region) | n (r : Region) | pad (r : Region)
  | wc (r : Region) | wcTot | hdr (r : Region)
  deriving DecidableEq, Repr

/-- Access rights of a register (R41). -/
inductive Access where
  | rw
  | ro
  deriving DecidableEq, Repr

/-- The address of each register (R41). -/
def RegName.addr : RegName → RegAddr
  | .ctrl => 0x00#8
  | .status => 0x01#8
  | .startOff => 0x02#8
  | .endOff => 0x03#8
  | .sloop => 0x04#8
  | .eloop => 0x05#8
  | .dur => 0x06#8
  | .ldur => 0x07#8
  | .acc => 0x08#8
  | .rb .attack => 0x10#8
  | .re .attack => 0x11#8
  | .rb .loop => 0x12#8
  | .re .loop => 0x13#8
  | .rb .decay => 0x14#8
  | .re .decay => 0x15#8
  | .n .attack => 0x18#8
  | .n .loop => 0x19#8
  | .n .decay => 0x1A#8
  | .pad .attack => 0x1C#8
  | .pad .loop => 0x1D#8
  | .pad .decay => 0x1E#8
  | .wc .attack => 0x20#8
  | .wc .loop => 0x21#8
  | .wc .decay => 0x22#8
  | .wcTot => 0x23#8
  | .hdr .attack => 0x24#8
  | .hdr .loop => 0x25#8
  | .hdr .decay => 0x26#8

/-- The access rights of each register (R41): CTRL and the six metadata registers are RW, all others RO. -/
def RegName.access : RegName → Access
  | .ctrl | .startOff | .endOff | .sloop | .eloop | .dur | .ldur => .rw
  | .status | .acc | .rb _ | .re _ | .n _ | .pad _ | .wc _ | .wcTot | .hdr _ => .ro

/-- Every register of the map (R41). -/
def RegName.all : List RegName :=
  [.ctrl, .status, .startOff, .endOff, .sloop, .eloop, .dur, .ldur, .acc,
   .rb .attack, .re .attack, .rb .loop, .re .loop, .rb .decay, .re .decay,
   .n .attack, .n .loop, .n .decay, .pad .attack, .pad .loop, .pad .decay,
   .wc .attack, .wc .loop, .wc .decay, .wcTot, .hdr .attack, .hdr .loop, .hdr .decay]

/-- The register at an address; `none` at an undefined address (R41). -/
def RegName.ofAddr (ra : RegAddr) : Option RegName :=
  RegName.all.find? (fun r => r.addr == ra)

/-- The address names a register (R41, R103). -/
def regDefined (ra : RegAddr) : Bool :=
  (RegName.ofAddr ra).isSome

/-- The address names a register that WREG may write (R41, R102). -/
def regWritable (ra : RegAddr) : Bool :=
  match RegName.ofAddr ra with
  | some r => r.access == .rw
  | none => false

end Sys2Proof.Machine
end

