-- ==== Sys2Proof/WellFormed.lean ====
section
/-! DEFINITION. Well-formed commands: those that 30_encoding.md R78 does not call illegal. The widths of the fields and
the range of RG are in the types of `Instr`; what is left are the two checks of RA, which WREG and RREG make themselves
(40_control.md R102, R103). -/

namespace Sys2Proof

/-- The command is not illegal (R78): RREG names a defined register, WREG one that may be written. -/
def Instr.wellFormed : Instr → Bool
  | .nop => true
  | .clr => true
  | .wreg ra _ => Machine.regWritable ra
  | .rreg ra => Machine.regDefined ra
  | .seg => true
  | .padq _ => true
  | .wcq _ => true
  | .pcm _ => true
  | .mulaw _ => true
  | .encq _ => true
  | .pushb _ => true
  | .pad _ => true
  | .hdr _ => true
  | .region _ => true
  | .exportRun => true

end Sys2Proof
end

