-- ==== Sys2Proof/Decode.lean ====
section
/-! DEFINITION. The decoder (30_encoding.md R73 to R79), total on every pair of command word and operand, and the
encoder written from the same tables. -/

namespace Sys2Proof

/-- The five formats of a command word (R74). -/
inductive Format where
  | N | G | S | B | R
  deriving DecidableEq, Repr

/-- Why a command word is ILLEGAL by decode (R78). -/
inductive IllegalWord where
  /-- `OP = 0xF` is reserved. -/
  | reservedOpcode
  /-- A must-be-zero bit of the opcode's format is set. -/
  | nonzeroReservedBits
  /-- An R-format word with `RG = 3`. -/
  | reservedRegion
  deriving DecidableEq, Repr

/-- What the decoder answers: a command, or ILLEGAL with the reason (R77). -/
inductive Decoded where
  | ok (i : Instr)
  | illegal (why : IllegalWord)
  deriving DecidableEq, Repr

/-- The field OP, bits 31:28 (R73). -/
def opField (cmd : Word) : BitVec 4 := cmd.extractLsb' 28 4

/-- The field RG, bits 25:24 (R73). -/
def rgField (cmd : Word) : BitVec 2 := cmd.extractLsb' 24 2

/-- The field RA, bits 23:16 (R73). -/
def raField (cmd : Word) : RegAddr := cmd.extractLsb' 16 8

/-- The field IMM16, bits 15:0 (R73). -/
def imm16Field (cmd : Word) : Half := cmd.extractLsb' 0 16

/-- The field IMM8, bits 7:0 (R73). -/
def imm8Field (cmd : Word) : Byte := cmd.extractLsb' 0 8

/-- The region that an RG value names; 3 names none (R15, R73). -/
def Region.ofBits : BitVec 2 → Option Region
  | 0#2 => some .attack
  | 1#2 => some .loop
  | 2#2 => some .decay
  | _ => none

/-- The RG value of a region (R15). -/
def Region.bits : Region → BitVec 2
  | .attack => 0#2
  | .loop => 1#2
  | .decay => 2#2

/-- The column "format" of the opcode map; `none` for the reserved opcode (R76). -/
def formatOf (op : BitVec 4) : Option Format :=
  match op.toNat with
  | 0x0 | 0x1 | 0x4 | 0x5 | 0x6 | 0xE => some .N
  | 0x2 | 0x3 => some .G
  | 0x7 | 0x8 | 0x9 => some .S
  | 0xA => some .B
  | 0xB | 0xC | 0xD => some .R
  | _ => none

/-- The mask of a format (R74). -/
def maskOf : Format → Word
  | .N => 0xFFFFFFFF#32
  | .G => 0xFF00FFFF#32
  | .S => 0xFFFF0000#32
  | .B => 0xFFFFFF00#32
  | .R => 0xFCFFFFFF#32

/-- `OP << 28`, the match value of an opcode (R74). -/
def opBase (op : BitVec 4) : Word := op.setWidth 32 <<< 28

/-- The command of a word whose must-be-zero bits are zero, by its opcode (R76); `none` if an R-format word has
`RG = 3` (R77). -/
def instrOf (cmd dat : Word) : Option Instr :=
  match (opField cmd).toNat with
  | 0x0 => some .nop
  | 0x1 => some .clr
  | 0x2 => some (.wreg (raField cmd) dat)
  | 0x3 => some (.rreg (raField cmd))
  | 0x4 => some .seg
  | 0x5 => some (.padq dat)
  | 0x6 => some (.wcq dat)
  | 0x7 => some (.pcm (imm16Field cmd))
  | 0x8 => some (.mulaw (imm16Field cmd))
  | 0x9 => some (.encq (imm16Field cmd))
  | 0xA => some (.pushb (imm8Field cmd))
  | 0xB => (Region.ofBits (rgField cmd)).map .pad
  | 0xC => (Region.ofBits (rgField cmd)).map .hdr
  | 0xD => (Region.ofBits (rgField cmd)).map .region
  | 0xE => some .exportRun
  | _ => none

/-- The decoder (R77), a total function of the command word and its operand. -/
def decode (cmd dat : Word) : Decoded :=
  match formatOf (opField cmd) with
  | none => .illegal .reservedOpcode
  | some fmt =>
    if cmd &&& maskOf fmt = opBase (opField cmd) then
      match instrOf cmd dat with
      | some i => .ok i
      | none => .illegal .reservedRegion
    else .illegal .nonzeroReservedBits

/-- The opcode of a command (R76). -/
def Instr.opcode : Instr → BitVec 4
  | .nop => 0x0#4
  | .clr => 0x1#4
  | .wreg _ _ => 0x2#4
  | .rreg _ => 0x3#4
  | .seg => 0x4#4
  | .padq _ => 0x5#4
  | .wcq _ => 0x6#4
  | .pcm _ => 0x7#4
  | .mulaw _ => 0x8#4
  | .encq _ => 0x9#4
  | .pushb _ => 0xA#4
  | .pad _ => 0xB#4
  | .hdr _ => 0xC#4
  | .region _ => 0xD#4
  | .exportRun => 0xE#4

/-- The operand fields of a command at their places in the word (R73). -/
def Instr.fieldBits : Instr → Word
  | .wreg ra _ => ra.setWidth 32 <<< 16
  | .rreg ra => ra.setWidth 32 <<< 16
  | .pcm x => x.setWidth 32
  | .mulaw x => x.setWidth 32
  | .encq x => x.setWidth 32
  | .pushb b => b.setWidth 32
  | .pad r => r.bits.setWidth 32 <<< 24
  | .hdr r => r.bits.setWidth 32 <<< 24
  | .region r => r.bits.setWidth 32 <<< 24
  | .nop | .clr | .seg | .padq _ | .wcq _ | .exportRun => 0#32

/-- The operand `dat` that goes with a command: its value where it is used, else 0 (R76, R80). -/
def Instr.operand : Instr → Word
  | .wreg _ dat => dat
  | .padq n => n
  | .wcq n => n
  | .nop | .clr | .rreg _ | .seg | .pcm _ | .mulaw _ | .encq _ | .pushb _ | .pad _ | .hdr _ | .region _
  | .exportRun => 0#32

/-- The encoder: the pair `(cmd, dat)` of a command (R73, R74, R76). -/
def encode (i : Instr) : Word × Word :=
  (opBase i.opcode ||| i.fieldBits, i.operand)

/-- The command word in the low 32 bits of a transfer given as one number (assumption log 13). -/
def tableCmd (nbits w : Nat) : Word := BitVec.ofNat 32 (w % 2 ^ nbits)

/-- The operand in the next 32 bits of a transfer given as one number (assumption log 13). -/
def tableDat (nbits w : Nat) : Word := BitVec.ofNat 32 ((w % 2 ^ nbits) / 2 ^ 32)

/-- The command the decoder reads from a transfer given as one number; `none` where the word is ILLEGAL. -/
def decodeTableWord (nbits w : Nat) : Option Instr :=
  match decode (tableCmd nbits w) (tableDat nbits w) with
  | .ok i => some i
  | .illegal _ => none

end Sys2Proof
end

