-- ==== Sys2Proof/Config.lean ====
section
/-! DEFINITION. What an instance fixes (the open parameter P_HDR_LINE, 00_scope.md R9) and the free values: constants
without a body, so that no proof can know what they are. -/

namespace Sys2Proof

/-- The open parameters of an instance (R9). They are plain data in State, which no step changes, so that a claim over
every state covers both settings (assumption log 8). -/
structure Params where
  /-- `P_HDR_LINE`: header words count toward the eight words of a line and can carry the end-of-line flag (R153). -/
  hdrLine : Bool
  deriving DecidableEq, Repr

/-- FREE VALUE (R227, I10): the byte a read returns while the host breaks its duty to keep the sample buffer stable.
Arguments: the state's free-value counter and the byte address (assumption log 6). -/
opaque Config.racyByte : Nat → Nat → Byte

/-- FREE VALUE (R221, I11): how many of its records a command had delivered when it was cut off, or stopped for want of
a handshake. Argument: the state's free-value counter (assumption log 5). -/
opaque Config.deliveredRecords : Nat → Nat

end Sys2Proof
end

