-- ==== Sys2Proof/Machine/Memory.lean ====
section
/-! DEFINITION. The sample buffer SB as plain data (20_memory.md R51, R52): a list of (address, byte) cells in one
canonical form. Every 32-bit address exists, and no read fails. -/

namespace Sys2Proof.Machine

/-- The sample buffer: cells at strictly rising addresses, none equal to what an unlisted address reads as. -/
abbrev Memory := List Host.Cell

/-- What an address that no cell lists reads as: 0x00. DESIGN CHOICE (assumption log 3), unsafe: the spec leaves the
contents of SB to the host (R51). -/
def Memory.unlisted : Byte := 0x00#8

/-- `SB(a)` (R52). -/
def Memory.read : Memory → Nat → Byte
  | [], _ => Memory.unlisted
  | (k, b) :: rest, a => if k = a then b else Memory.read rest a

/-- Put a cell in front, unless it would list what an unlisted address reads as. -/
def Memory.consCell (a : Nat) (v : Byte) (m : Memory) : Memory :=
  if v = Memory.unlisted then m else (a, v) :: m

/-- The host's write of one byte (R51, R64), in canonical form. -/
def Memory.write : Memory → Nat → Byte → Memory
  | [], a, v => Memory.consCell a v []
  | (k, b) :: rest, a, v =>
    if a < k then Memory.consCell a v ((k, b) :: rest)
    else if a = k then Memory.consCell a v rest
    else (k, b) :: Memory.write rest a v

/-- The cells from some address on are in canonical form: every address is at least `lo` and within the 32-bit space
(R8), they rise strictly, and no cell lists what an unlisted address reads as. -/
def Memory.wfFrom (lo : Nat) : Memory → Bool
  | [] => true
  | (k, b) :: rest => decide (lo ≤ k) && decide (k < 2 ^ 32) && (b != Memory.unlisted) && Memory.wfFrom (k + 1) rest

/-- The canonical form of the sample buffer. -/
def Memory.wf (m : Memory) : Bool := Memory.wfFrom 0 m

end Sys2Proof.Machine
end

