-- ==== Sys2Proof/Machine/State.lean ====
section
/-! DEFINITION. The state of the machine (10_state.md R20): the CORE's own state, the sample buffer and the parameters
it is given, and the model's record of what the host sends and receives. Plain data throughout. -/

namespace Sys2Proof.Machine

/-- The control register CTRL (R23). Its bits 31:2 are ignored on a write and read as 0, so they are not stored. -/
structure Control where
  mode : Mode
  force : Bool
  deriving DecidableEq, Repr

/-- The metadata inputs (R25, R26). -/
structure Metadata where
  startOff : Word
  endOff : Word
  sloop : Word
  eloop : Word
  dur : Word
  ldur : Word
  deriving DecidableEq, Repr

/-- The derived registers of one region: `RB_r`, `RE_r`, `N_r`, `PAD_r`, `WC_r` (R29 to R32). -/
structure RegionRegs where
  rb : Word
  re : Word
  n : Word
  pad : Word
  wc : Word
  deriving DecidableEq, Repr

/-- The segmenter results (R27 to R32). -/
structure SegResults where
  segv : Bool
  ok : Bool
  smode : Mode
  eOrder : Bool
  eMalf : Bool
  eLen : Bool
  eLooplen : Bool
  eEndloop : Bool
  attack : RegionRegs
  loop : RegionRegs
  decay : RegionRegs
  wcTot : Word
  deriving DecidableEq, Repr

/-- The kind of an output record (R38); `RecordKind.bits` in Port.lean is its value on `out_kind`. -/
inductive RecordKind where
  /-- A header word, written directly. -/
  | hdr
  /-- A word closed by the packer. -/
  | data
  deriving DecidableEq, Repr

/-- An output record `(kind, rg, word, eol)` (R38). -/
structure OutRecord where
  kind : RecordKind
  rg : BitVec 2
  word : Word
  eol : Bool
  deriving DecidableEq, Repr

/-- The packer state, the source's PackedWordStream (R34 to R36), with the output history OUT it appends to (R38). -/
structure PackedStream where
  acc : Word
  bcnt : BitVec 2
  lcnt : BitVec 3
  out : List OutRecord
  deriving DecidableEq, Repr

/-- The sticky status bits (R37). -/
structure Sticky where
  ill : Bool
  nrdy : Bool
  done : Bool
  deriving DecidableEq, Repr

/-- A response `(rsp_data, rsp_err, rsp_code)` (60_exceptions.md R200). -/
structure Response where
  data : Word
  err : Bool
  code : BitVec 4
  deriving DecidableEq, Repr

/-- How the environment behaves while a command runs. -/
structure Conduct where
  /-- The host keeps the sample buffer stable (70_reset_and_hazards.md R227). -/
  sbStable : Bool
  /-- The command runs to its end: every handshake is answered (R229) and no reset cuts it off (R221). -/
  completes : Bool
  deriving DecidableEq, Repr

/-- The conduct the spec asks of the environment: a stable buffer, every handshake answered, no reset meanwhile. -/
def Conduct.good : Conduct := ⟨true, true⟩

/-- An event at the CORE's input ports, as the host causes it (30_encoding.md R70; assumption log 1). -/
inductive HostEvent where
  /-- The command port transfers the pair `(cmd, dat)` (R70, R71). -/
  | command (cmd dat : Word) (conduct : Conduct)
  /-- The host writes one byte of the sample buffer (R51, R64). -/
  | writeSample (a : Word) (b : Byte)
  /-- `rst` is asserted and released (R220). -/
  | reset
  deriving DecidableEq, Repr

/-- Why the machine stops with a fault: never. Every error of the CORE is a response (R200, R207), and no access can
fail (R51, R170); so there is no constructor (assumption log 12). -/
inductive Fault where
  deriving DecidableEq, Repr

/-- Why a command has no meaning. -/
inductive Refusal where
  /-- Raised by an arm of `exec` for a row of the opcode table that has no meaning yet; no arm raises it (safe). -/
  | notModelled (mnemonic : String)
  deriving DecidableEq, Repr

/-- The state of the machine. -/
structure State where
  /-- CTRL (R23). -/
  control : Control
  /-- START, END, SLOOP, ELOOP, DUR, LDUR (R25, R26). -/
  metadata : Metadata
  /-- The segmenter results (R27 to R32). -/
  seg : SegResults
  /-- ACC, BCNT, LCNT and OUT (R34 to R36, R38). -/
  stream : PackedStream
  /-- ILL, NRDY, DONE (R37). -/
  sticky : Sticky
  /-- BUSY (R39): a command has begun and will not complete (R229; assumption log 5). -/
  busy : Bool
  /-- SB, the sample buffer (20_memory.md R51). -/
  sb : Memory
  /-- The parameters of the instance (00_scope.md R9); no step changes them. -/
  params : Params
  /-- The MODEL's own: the host's events still to come, the next one first (assumption log 1). -/
  port : List HostEvent
  /-- The MODEL's own: the responses sent so far, the newest last (assumption log 10). -/
  rsps : List Response
  /-- The MODEL's own: the host is breaking R227 during the running command (assumption log 6). -/
  sbRacing : Bool
  /-- The MODEL's own: the counter that the free values are applied to (assumption log 7). -/
  freeCount : Nat
  deriving DecidableEq, Repr

/-- CTRL at reset: PCM, no forced export (R42). -/
def Control.reset : Control := ⟨.pcm, false⟩

/-- The metadata registers at reset: 0 each (R42). -/
def Metadata.reset : Metadata := ⟨0#32, 0#32, 0#32, 0#32, 0#32, 0#32⟩

/-- Derived registers holding 0: at reset (R42) and after a SEG with a fatal error (R117). -/
def RegionRegs.zero : RegionRegs := ⟨0#32, 0#32, 0#32, 0#32, 0#32⟩

/-- The segmenter results at reset: all 0 (R42). -/
def SegResults.reset : SegResults :=
  { segv := false, ok := false, smode := .pcm,
    eOrder := false, eMalf := false, eLen := false, eLooplen := false, eEndloop := false,
    attack := .zero, loop := .zero, decay := .zero, wcTot := 0#32 }

/-- The sticky status at reset: 0 (R42). -/
def Sticky.clear : Sticky := ⟨false, false, false⟩

/-- The machine right after its first reset (R42): nothing has been emitted, sent or received yet, no byte of the sample
buffer is listed, and `P_HDR_LINE` has its recommended default (assumption log 8 and 9). -/
def State.reset : State :=
  { control := .reset
    metadata := .reset
    seg := .reset
    stream := ⟨0#32, 0#2, 0#3, []⟩
    sticky := .clear
    busy := false
    sb := []
    params := ⟨false⟩
    port := []
    rsps := []
    sbRacing := false
    freeCount := 0 }

end Sys2Proof.Machine
end

