-- ==== Sys2Proof/Machine/Values.lean ====
section
/-! DEFINITION. The pure value functions, over unbounded integers as 00_scope.md R12 asks: pad and word counts
(41_segmenter.md R110, R111), the header word (43_packer.md R156), the µ-law rule (42_encoder.md R130). -/

namespace Sys2Proof.Machine

/-- `ALIGN`: the region alignment block, in samples (R7). -/
def alignBlock : Nat := 128

/-- `BPS(mode)`: output bytes per sample (R7). -/
def bytesPerSample : Mode → Nat
  | .pcm => 2
  | .mulaw => 1

/-- `TAG(mode)`: the format tag (R7). -/
def formatTag : Mode → Byte
  | .pcm => 0x81#8
  | .mulaw => 0x01#8

/-- `pad(n)` (R110). -/
def padCount (n : Nat) : Nat := (alignBlock - n % alignBlock) % alignBlock

/-- `wc(n, m)` (R111), the header word included. -/
def wordCount (n : Nat) (m : Mode) : Nat := ((n + padCount n) * bytesPerSample m + 3) / 4 + 1

/-- `hdr(n, m)` (R156): the tag in bits 31:24, the sample count in bits 23:0. R156 gives it for counts below 2^24
(assumption log 15). -/
def headerWord (n : Word) (m : Mode) : Word := n ||| ((formatTag m).setWidth 32 <<< 24)

/-- `BIAS` (R7). -/
def mulawBias : Nat := 128

/-- `CLIP` (R7). -/
def mulawClip : Nat := 0x7FFF

/-- A row of the µ-law tier table (R130). -/
structure Tier where
  threshold : Nat
  code : Byte
  shift : Nat
  deriving DecidableEq, Repr

/-- The last row of the tier table, "else" (R130). -/
def tierZero : Tier := ⟨0x0000, 0x00#8, 3⟩

/-- The tier table, top down (R130). -/
def tierTable : List Tier :=
  [⟨0x4000, 0x70#8, 10⟩, ⟨0x2000, 0x60#8, 9⟩, ⟨0x1000, 0x50#8, 8⟩, ⟨0x0800, 0x40#8, 7⟩,
   ⟨0x0400, 0x30#8, 6⟩, ⟨0x0200, 0x20#8, 5⟩, ⟨0x0100, 0x10#8, 4⟩, tierZero]

/-- The first row, top down, whose threshold the magnitude meets (R130, decision D10). -/
def tierOf (mag : Nat) : Tier :=
  match tierTable.find? (fun t => decide (t.threshold ≤ mag)) with
  | some t => t
  | none => tierZero

/-- The biased and clamped magnitude of a sample, in exact integers (R130): no 16-bit overflow at -32768. -/
def mulawMag (v : Int) : Nat := min (v.natAbs + mulawBias) mulawClip

/-- The sign bit of a sample's code (R130). -/
def mulawSign (v : Int) : Byte := if v < 0 then 0x80#8 else 0x00#8

/-- `mulaw(x)` (R130). -/
def mulawByte (x : Half) : Byte :=
  let v := x.toInt
  let mag := mulawMag v
  let t := tierOf mag
  mulawSign v ||| t.code ||| BitVec.ofNat 8 ((mag >>> t.shift) &&& 0x0F)

end Sys2Proof.Machine
end

