-- ==== Sys2Proof/Machine/Ops.lean ====
section
/-! DEFINITION. The shared operations: responses and errors (60_exceptions.md R200 to R203), the only thing the CORE has
in the place of exceptions (R207), the sample-buffer read (20_memory.md R52, R53), and the packer's Push and Emit
(43_packer.md R150, R153). -/

namespace Sys2Proof.Machine

/-- The error codes (R201). Codes 8 to 15 do not exist. -/
inductive Code where
  | none | illegal | notReady | order | malformed | length | loopLen | endLoop
  deriving DecidableEq, Repr

/-- The value of a code on `rsp_code` (R201). -/
def Code.bits : Code → BitVec 4
  | .none => 0#4
  | .illegal => 1#4
  | .notReady => 2#4
  | .order => 3#4
  | .malformed => 4#4
  | .length => 5#4
  | .loopLen => 6#4
  | .endLoop => 7#4

/-- Send the command's one response (R71, R200). -/
def respond (data : Word) (err : Bool) (code : Code) (s : State) : State :=
  { s with rsps := s.rsps ++ [⟨data, err, code.bits⟩] }

/-- The response of a command that succeeds: its value, no error, no code (R200). -/
def complete (data : Word) (s : State) : State := respond data false .none s

/-- Set the sticky bit of an error that ends its command (R37). -/
def Sticky.set (e : Code) (k : Sticky) : Sticky :=
  match e with
  | .illegal => { k with ill := true }
  | .notReady => { k with nrdy := true }
  | .none | .order | .malformed | .length | .loopLen | .endLoop => k

/-- `raise Error(e)`: the command ends with response `(0, 1, e)` and its sticky bit set, and with no other change
(R202, R203, R206). The CORE takes no trap (R207), so this is its whole error entry; nothing returns from it (R208). -/
def raiseError (e : Code) (s : State) : State :=
  respond 0#32 true e { s with sticky := s.sticky.set e }

/-- The segmenter results are valid and exportable (R27, R203). -/
def SegResults.ready (g : SegResults) : Bool := g.segv && g.ok

/-- The check of PAD, HDR and REGION: with `SEGV = 1` and `OK = 1` the command's effect, else NOTREADY (R203). -/
def whenReady (s t : State) : State := if s.seg.ready then t else raiseError .notReady s

/-- `MemRead(a, 1)` (R52). While the host breaks R227 the byte is a free value (assumption log 6). -/
def memRead (s : State) (a : Word) : Byte :=
  if s.sbRacing then Config.racyByte s.freeCount a.toNat else s.sb.read a.toNat

/-- The i-th sample of a region whose byte range starts at `rb`, low byte at the lower address (R53). -/
def readSample (s : State) (rb : Word) (i : Nat) : Half :=
  memRead s (rb + BitVec.ofNat 32 (2 * i + 1)) ++ memRead s (rb + BitVec.ofNat 32 (2 * i))

/-- `Emit(kind, rg, w, counts)`: append one record and drive the line counter (R153). -/
def emit (kind : RecordKind) (rg : BitVec 2) (w : Word) (counts : Bool) (st : PackedStream) : PackedStream :=
  { st with
    lcnt := if counts then st.lcnt + 1#3 else st.lcnt
    out := st.out ++ [⟨kind, rg, w, counts && st.lcnt == 7#3⟩] }

/-- `Push(b)`: the byte goes to lane BCNT, and the fourth byte closes the word, which clears ACC and BCNT in the same
step (R150 to R152). -/
def push (b : Byte) (st : PackedStream) : PackedStream :=
  let w := st.acc ||| (b.setWidth 32 <<< (8 * st.bcnt.toNat))
  if st.bcnt = 3#2 then
    emit .data 0#2 w true { st with acc := 0#32, bcnt := 0#2 }
  else
    { st with acc := w, bcnt := st.bcnt + 1#2 }

/-- `repeat n times: Push(0x00)` (R155, R170). -/
def pushZeros : Nat → PackedStream → PackedStream
  | 0, st => st
  | n + 1, st => push 0x00#8 (pushZeros n st)

/-- The packer state cleared; no record is removed from OUT (R38, R42, R101). -/
def PackedStream.clear (st : PackedStream) : PackedStream :=
  { st with acc := 0#32, bcnt := 0#2, lcnt := 0#3 }

/-- The effects of CLR (R101), which EXPORT begins with (R172). -/
def clearEffects (s : State) : State :=
  { s with stream := s.stream.clear, sticky := .clear }

end Sys2Proof.Machine
end

