-- ==== Sys2Proof/Machine/Operands.lean ====
section
/-! DEFINITION. The operand forms (30_encoding.md R75): the two bytes of IMM16, the registers that RG selects, and the
register that RA names, read and written through the register map (10_state.md R41). -/

namespace Sys2Proof.Machine

/-- `lo8(x)` (00_scope.md R13). -/
def lo8 (x : Half) : Byte := x.extractLsb' 0 8

/-- `hi8(x)` (00_scope.md R13). -/
def hi8 (x : Half) : Byte := x.extractLsb' 8 8

/-- The derived registers that RG selects (R75). -/
def SegResults.region (g : SegResults) : Region → RegionRegs
  | .attack => g.attack
  | .loop => g.loop
  | .decay => g.decay

/-- The encoding mode of a bit (R23). -/
def Mode.ofBit (b : Bool) : Mode := if b then .mulaw else .pcm

/-- The bit of an encoding mode (R23). -/
def Mode.bit : Mode → Bool
  | .pcm => false
  | .mulaw => true

/-- A word with one bit at position `k`, the others 0. -/
def bitAt (b : Bool) (k : Nat) : Word := (BitVec.ofBool b).setWidth 32 <<< k

/-- CTRL as a word (R23): bit 0 MODE, bit 1 FORCE, bits 31:2 zero. -/
def ctrlWord (c : Control) : Word := bitAt (Mode.bit c.mode) 0 ||| bitAt c.force 1

/-- CTRL from a written word: bits 31:2 are ignored (R23, R102). -/
def ctrlOfWord (v : Word) : Control := ⟨Mode.ofBit (v.getLsbD 0), v.getLsbD 1⟩

/-- `RESID` (R40). -/
def residualBit (st : PackedStream) : Bool := st.bcnt != 0#2

/-- STATUS as a word (R24); the bits it does not name are 0. -/
def statusWord (s : State) : Word :=
  bitAt s.seg.segv 0 ||| bitAt s.seg.ok 1 ||| bitAt s.sticky.done 2 ||| bitAt (Mode.bit s.seg.smode) 3
    ||| bitAt s.sticky.ill 4 ||| bitAt s.sticky.nrdy 5
    ||| bitAt s.seg.eOrder 8 ||| bitAt s.seg.eMalf 9 ||| bitAt s.seg.eLen 10
    ||| bitAt s.seg.eLooplen 11 ||| bitAt s.seg.eEndloop 12
    ||| s.stream.bcnt.setWidth 32 <<< 16 ||| s.stream.lcnt.setWidth 32 <<< 20
    ||| bitAt (residualBit s.stream) 24

/-- The view `HDR_r` (R33): the header word while `SEGV = 1` and `OK = 1`, else 0. -/
def headerView (g : SegResults) (r : Region) : Word :=
  if g.ready then headerWord (g.region r).n g.smode else 0#32

/-- `reg[RA]`, by the register's name (R41). -/
def readReg (s : State) : RegName → Word
  | .ctrl => ctrlWord s.control
  | .status => statusWord s
  | .startOff => s.metadata.startOff
  | .endOff => s.metadata.endOff
  | .sloop => s.metadata.sloop
  | .eloop => s.metadata.eloop
  | .dur => s.metadata.dur
  | .ldur => s.metadata.ldur
  | .acc => s.stream.acc
  | .rb r => (s.seg.region r).rb
  | .re r => (s.seg.region r).re
  | .n r => (s.seg.region r).n
  | .pad r => (s.seg.region r).pad
  | .wc r => (s.seg.region r).wc
  | .wcTot => s.seg.wcTot
  | .hdr r => headerView s.seg r

/-- `reg[RA] <- v`, by the register's name (R41, R102). A read-only register is not written: WREG refuses it before. -/
def writeReg (v : Word) (s : State) : RegName → State
  | .ctrl => { s with control := ctrlOfWord v }
  | .startOff => { s with metadata := { s.metadata with startOff := v } }
  | .endOff => { s with metadata := { s.metadata with endOff := v } }
  | .sloop => { s with metadata := { s.metadata with sloop := v } }
  | .eloop => { s with metadata := { s.metadata with eloop := v } }
  | .dur => { s with metadata := { s.metadata with dur := v } }
  | .ldur => { s with metadata := { s.metadata with ldur := v } }
  | .status | .acc | .rb _ | .re _ | .n _ | .pad _ | .wc _ | .wcTot | .hdr _ => s

/-- Every write of CTRL or of a metadata register makes the segmentation stale (R102, R224). -/
def invalidateSeg (s : State) : State :=
  { s with seg := { s.seg with segv := false, ok := false } }

end Sys2Proof.Machine
end

