-- ==== Sys2Proof/Machine/Control.lean ====
section
/-! DEFINITION. The control and register-access commands (40_control.md): NOP, CLR, WREG, RREG. -/

namespace Sys2Proof.Machine

/-- NOP (R100). -/
def execNop (s : State) : Host.Outcome State Fault Refusal := .next (complete 0#32 s)

/-- CLR (R101). -/
def execClr (s : State) : Host.Outcome State Fault Refusal := .next (complete 0#32 (clearEffects s))

/-- WREG (R102): an undefined or read-only RA is ILLEGAL; a write clears SEGV and OK. -/
def execWreg (ra : RegAddr) (dat : Word) (s : State) : Host.Outcome State Fault Refusal :=
  match RegName.ofAddr ra with
  | none => .next (raiseError .illegal s)
  | some r =>
    match r.access with
    | .ro => .next (raiseError .illegal s)
    | .rw => .next (complete 0#32 (invalidateSeg (writeReg dat s r)))

/-- RREG (R103): an undefined RA is ILLEGAL; a read changes nothing. -/
def execRreg (ra : RegAddr) (s : State) : Host.Outcome State Fault Refusal :=
  match RegName.ofAddr ra with
  | none => .next (raiseError .illegal s)
  | some r => .next (complete (readReg s r) s)

end Sys2Proof.Machine
end

