-- ==== Sys2Proof/Machine/Encoder.lean ====
section
/-! DEFINITION. The sample encoder's commands (42_encoder.md): PCM, MULAW, ENCQ. -/

namespace Sys2Proof.Machine

/-- PCM (R133): the low byte, then the high byte. -/
def execPcm (x : Half) (s : State) : Host.Outcome State Fault Refusal :=
  .next (complete 0#32 { s with stream := push (hi8 x) (push (lo8 x) s.stream) })

/-- MULAW (R134). -/
def execMulaw (x : Half) (s : State) : Host.Outcome State Fault Refusal :=
  .next (complete 0#32 { s with stream := push (mulawByte x) s.stream })

/-- ENCQ (R135). -/
def execEncq (x : Half) (s : State) : Host.Outcome State Fault Refusal :=
  .next (complete ((mulawByte x).setWidth 32) s)

end Sys2Proof.Machine
end

