-- ==== Sys2Proof/Machine/Packer.lean ====
section
/-! DEFINITION. The packer's commands (43_packer.md): PUSHB, PAD, HDR. -/

namespace Sys2Proof.Machine

/-- `Emit(HDR, r, hdr(N_r, SMODE), counts = P_HDR_LINE)` (R157): the header goes straight to the output and leaves ACC
and BCNT alone (R158). -/
def emitHeader (s : State) (r : Region) (st : PackedStream) : PackedStream :=
  emit .hdr r.bits (headerWord (s.seg.region r).n s.seg.smode) s.params.hdrLine st

/-- The pad of a region: `PAD_r` single zero bytes in either mode (R155). -/
def pushPad (s : State) (r : Region) (st : PackedStream) : PackedStream :=
  pushZeros (s.seg.region r).pad.toNat st

/-- PUSHB (R154). -/
def execPushb (b : Byte) (s : State) : Host.Outcome State Fault Refusal :=
  .next (complete 0#32 { s with stream := push b s.stream })

/-- PAD (R155). -/
def execPad (r : Region) (s : State) : Host.Outcome State Fault Refusal :=
  .next (whenReady s (complete 0#32 { s with stream := pushPad s r s.stream }))

/-- HDR (R157). -/
def execHdr (r : Region) (s : State) : Host.Outcome State Fault Refusal :=
  .next (whenReady s (complete 0#32 { s with stream := emitHeader s r s.stream }))

end Sys2Proof.Machine
end

