-- ==== Sys2Proof/Machine/Flags.lean ====
section
/-! DEFINITION. The validation bits and what follows from them (41_segmenter.md R112 to R117): the five checks, the
derived registers, OK, and the response code in the order of 60_exceptions.md R205. -/

namespace Sys2Proof.Machine

/-- The ORDER check (R113). -/
def orderViolated (m : Metadata) : Bool :=
  !(decide (m.startOff.toNat ≤ m.sloop.toNat) && decide (m.sloop.toNat ≤ m.eloop.toNat)
    && decide (m.eloop.toNat ≤ m.endOff.toNat))

/-- `RB_r` relative to START (R112), where the ORDER check passes. -/
def rangeStart (m : Metadata) : Region → Nat
  | .attack => 0
  | .loop => m.sloop.toNat - m.startOff.toNat
  | .decay => m.eloop.toNat - m.startOff.toNat

/-- `RE_r` relative to START (R112), where the ORDER check passes. -/
def rangeEnd (m : Metadata) : Region → Nat
  | .attack => m.sloop.toNat - m.startOff.toNat
  | .loop => m.eloop.toNat - m.startOff.toNat
  | .decay => m.endOff.toNat - m.startOff.toNat

/-- `LEN_r` (R112). -/
def rangeLength (m : Metadata) (r : Region) : Nat := rangeEnd m r - rangeStart m r

/-- `N_r`, the sample count of a region (R114). -/
def sampleCount (m : Metadata) (r : Region) : Nat := rangeLength m r / 2

/-- The three regions in their processing order (R15). -/
def allRegions : List Region := [.attack, .loop, .decay]

/-- The MALFORMED check (R114): evaluated only when the ORDER check passes. -/
def malformedBit (m : Metadata) : Bool :=
  !orderViolated m && allRegions.any (fun r => rangeLength m r % 2 == 1)

/-- The LENGTH check (R114): evaluated only when the ORDER check passes. -/
def lengthBit (m : Metadata) : Bool :=
  !orderViolated m && allRegions.any (fun r => decide (2 ^ 24 ≤ sampleCount m r))

/-- The LOOPLEN check (R115). -/
def loopLenBit (m : Metadata) : Bool := decide (m.dur.toNat ≤ m.ldur.toNat)

/-- The ENDLOOP check (R116). -/
def endLoopBit (m : Metadata) : Bool := decide (m.dur.toNat < m.eloop.toNat)

/-- FATAL (R117): ORDER, MALFORMED or LENGTH. -/
def fatalBit (m : Metadata) : Bool := orderViolated m || malformedBit m || lengthBit m

/-- OK (R117): nothing fatal, and LOOPLEN and ENDLOOP only under FORCE. -/
def okBit (c : Control) (m : Metadata) : Bool :=
  !fatalBit m && (!(loopLenBit m || endLoopBit m) || c.force)

/-- The derived registers of a region when nothing is fatal (R117). -/
def regionRegsOf (c : Control) (m : Metadata) (r : Region) : RegionRegs :=
  { rb := BitVec.ofNat 32 (rangeStart m r)
    re := BitVec.ofNat 32 (rangeEnd m r)
    n := BitVec.ofNat 32 (sampleCount m r)
    pad := BitVec.ofNat 32 (padCount (sampleCount m r))
    wc := BitVec.ofNat 32 (wordCount (sampleCount m r) c.mode) }

/-- The derived registers of a region: computed, or zeroed under a fatal error (R117). -/
def derivedRegs (c : Control) (m : Metadata) (r : Region) : RegionRegs :=
  if fatalBit m then .zero else regionRegsOf c m r

/-- `WC_TOT` (R117): the sum of the three word counts, or 0 under a fatal error. -/
def wordTotal (c : Control) (m : Metadata) : Word :=
  (derivedRegs c m .attack).wc + (derivedRegs c m .loop).wc + (derivedRegs c m .decay).wc

/-- The segmenter results that SEG writes (R117), from CTRL and the metadata registers. -/
def segmentOf (c : Control) (m : Metadata) : SegResults :=
  { segv := true
    ok := okBit c m
    smode := c.mode
    eOrder := orderViolated m
    eMalf := malformedBit m
    eLen := lengthBit m
    eLooplen := loopLenBit m
    eEndloop := endLoopBit m
    attack := derivedRegs c m .attack
    loop := derivedRegs c m .loop
    decay := derivedRegs c m .decay
    wcTot := wordTotal c m }

/-- The first of ORDER, MALFORMED, LENGTH, LOOPLEN, ENDLOOP whose bit is set, else NONE (R117, R205). -/
def validationCode (g : SegResults) : Code :=
  if g.eOrder then .order
  else if g.eMalf then .malformed
  else if g.eLen then .length
  else if g.eLooplen then .loopLen
  else if g.eEndloop then .endLoop
  else .none

end Sys2Proof.Machine
end

