-- ==== Sys2Proof/Machine/Segmenter.lean ====
section
/-! DEFINITION. The region alignment calculator's commands (41_segmenter.md): SEG, PADQ, WCQ. -/

namespace Sys2Proof.Machine

/-- The effects of SEG (R117), which EXPORT runs too (R172): the segmenter results, and DONE cleared. -/
def segEffects (s : State) : State :=
  { s with
    seg := segmentOf s.control s.metadata
    sticky := { s.sticky with done := false } }

/-- The response of SEG after its effects (R117): WC_TOT, error exactly when OK is 0, the validation code. -/
def respondSeg (s : State) : State := respond s.seg.wcTot (!s.seg.ok) (validationCode s.seg) s

/-- SEG (R117). -/
def execSeg (s : State) : Host.Outcome State Fault Refusal := .next (respondSeg (segEffects s))

/-- PADQ (R118). -/
def execPadq (n : Word) (s : State) : Host.Outcome State Fault Refusal :=
  .next (complete (BitVec.ofNat 32 (padCount n.toNat)) s)

/-- WCQ (R119): in the live CTRL.MODE, not the latched one. -/
def execWcq (n : Word) (s : State) : Host.Outcome State Fault Refusal :=
  .next (complete (BitVec.ofNat 32 (wordCount n.toNat s.control.mode)) s)

end Sys2Proof.Machine
end

