-- ==== Sys2Proof/Machine/Sequencer.lean ====
section
/-! DEFINITION. The composite commands (44_sequencer.md): REGION and EXPORT. -/

namespace Sys2Proof.Machine

/-- Encode and push one sample (R170): in PCM mode its low byte and then its high byte, in µ-law mode its code. -/
def pushSample (m : Mode) (x : Half) (st : PackedStream) : PackedStream :=
  match m with
  | .pcm => push (hi8 x) (push (lo8 x) st)
  | .mulaw => push (mulawByte x) st

/-- The first `n` samples of a byte range that starts at `rb`, in ascending order (R54, R170). -/
def pushSamples (s : State) (rb : Word) : Nat → PackedStream → PackedStream
  | 0, st => st
  | n + 1, st => pushSample s.seg.smode (readSample s rb n) (pushSamples s rb n st)

/-- The body of REGION (R170): the header first, then the region's samples, then its pad. -/
def regionBody (s : State) (r : Region) (st : PackedStream) : PackedStream :=
  let g := s.seg.region r
  pushPad s r (pushSamples s g.rb g.n.toNat (emitHeader s r st))

/-- How many records lie between two output histories, as a response word (R170). -/
def recordsSince (before after : PackedStream) : Word :=
  BitVec.ofNat 32 (after.out.length - before.out.length)

/-- REGION (R170). -/
def execRegion (r : Region) (s : State) : Host.Outcome State Fault Refusal :=
  let st := regionBody s r s.stream
  .next (whenReady s (complete (recordsSince s.stream st) { s with stream := st }))

/-- The three regions of an export in their fixed order, over one packer (R172). -/
def exportBody (s : State) : PackedStream :=
  regionBody s .decay (regionBody s .loop (regionBody s .attack s.stream))

/-- EXPORT after its CLR and SEG effects (R172): refused with the validation code and no record, or the three regions
and DONE. -/
def exportAfterSeg (s : State) : State :=
  if s.seg.ok then
    respond s.seg.wcTot false (validationCode s.seg)
      { s with stream := exportBody s, sticky := { s.sticky with done := true } }
  else
    respond 0#32 true (validationCode s.seg) s

/-- EXPORT (R172). -/
def execExport (s : State) : Host.Outcome State Fault Refusal :=
  .next (exportAfterSeg (segEffects (clearEffects s)))

end Sys2Proof.Machine
end

