-- ==== Sys2Proof/Machine/Dispatch.lean ====
section
/-! DEFINITION. The dispatch of a decoded command to its meaning, one arm per constructor of `Instr`. -/

namespace Sys2Proof.Machine

def exec (i : Instr) (s : State) : Host.Outcome State Fault Refusal :=
  match i with
  | .nop => Sys2Proof.Machine.execNop s
  | .clr => Sys2Proof.Machine.execClr s
  | .wreg ra dat => Sys2Proof.Machine.execWreg ra dat s
  | .rreg ra => Sys2Proof.Machine.execRreg ra s
  | .seg => Sys2Proof.Machine.execSeg s
  | .padq n => Sys2Proof.Machine.execPadq n s
  | .wcq n => Sys2Proof.Machine.execWcq n s
  | .pcm x => Sys2Proof.Machine.execPcm x s
  | .mulaw x => Sys2Proof.Machine.execMulaw x s
  | .encq x => Sys2Proof.Machine.execEncq x s
  | .pushb b => Sys2Proof.Machine.execPushb b s
  | .pad r => Sys2Proof.Machine.execPad r s
  | .hdr r => Sys2Proof.Machine.execHdr r s
  | .region r => Sys2Proof.Machine.execRegion r s
  | .exportRun => Sys2Proof.Machine.execExport s

end Sys2Proof.Machine
end

