-- ==== Sys2Proof/Machine/Port.lean ====
section
/-! DEFINITION. The ports (30_encoding.md R70, R71; 70_reset_and_hazards.md R220, R221, R227 to R229): how a host event
acts on the CORE. `Step` only calls this. -/

namespace Sys2Proof.Machine

/-- `cmd_ready` (R70, R228). -/
def cmdReady (s : State) : Bool := !s.busy

/-- Run the command of a transferred pair: ILLEGAL if it does not decode, else its meaning (R71, R77, R202). -/
def runCommand (cmd dat : Word) (s : State) : Host.Outcome State Fault Refusal :=
  match decode cmd dat with
  | .ok i => exec i s
  | .illegal _ => .next (raiseError .illegal s)

/-- The records that a command which leads from `s` to `t` appends (R173). -/
def newRecords (s t : State) : List OutRecord := t.stream.out.drop s.stream.out.length

/-- A command that would lead from `s` to `t` has begun and does not complete (R221, R229): some of its records, from
the first on, are delivered, no response is sent, and BUSY stays 1 until reset. How many records is a free value; the
registers cannot be observed until the reset, and the model leaves them as they were (assumption log 5). -/
def stall (s t : State) : State :=
  { s with
    stream := { s.stream with out := s.stream.out ++ (newRecords s t).take (Config.deliveredRecords s.freeCount) }
    busy := true
    freeCount := s.freeCount + 1 }

/-- The end of a command during which the host changed the sample buffer (R227): the next such command reads other free
bytes (assumption log 6). -/
def endRace (t : State) : State := { t with sbRacing := false, freeCount := t.freeCount + 1 }

/-- The command port transfers `(cmd, dat)`, and the environment behaves as `c` says until the command ends. -/
def acceptCommand (cmd dat : Word) (c : Conduct) (s : State) : Host.Outcome State Fault Refusal :=
  match runCommand cmd dat { s with sbRacing := !c.sbStable } with
  | .next t =>
    if c.completes then .next (if c.sbStable then t else endRace t) else .next (stall s t)
  | .fault f => .fault f
  | .refused r => .refused r

/-- `rst` (R220, R221): every register to its reset value (R42). The records and responses already sent, the sample
buffer and the parameters are not the CORE's to change. -/
def applyReset (s : State) : State :=
  { State.reset with
    stream := { State.reset.stream with out := s.stream.out }
    sb := s.sb
    params := s.params
    port := s.port
    rsps := s.rsps
    freeCount := s.freeCount }

/-- The next host event acts on the CORE. While BUSY is 1 the command port transfers nothing, and the command waits
there (R228). -/
def takeEvent (e : HostEvent) (rest : List HostEvent) (s : State) : Host.Outcome State Fault Refusal :=
  match e with
  | .command cmd dat c => if cmdReady s then acceptCommand cmd dat c { s with port := rest } else .next s
  | .writeSample a b => .next { s with port := rest, sb := s.sb.write a.toNat b }
  | .reset => .next (applyReset { s with port := rest })

/-- The value of a record kind on `out_kind`: 1 = HDR, 0 = DATA (R70). -/
def RecordKind.bits : RecordKind → BitVec 1
  | .hdr => 1#1
  | .data => 0#1

/-- What the output port carries in one transfer (R70). -/
structure OutSignals where
  outKind : BitVec 1
  outRg : BitVec 2
  outWord : Word
  outEol : Bool
  deriving DecidableEq, Repr

/-- An output record as the output port carries it (R38, R70). -/
def OutRecord.signals (r : OutRecord) : OutSignals := ⟨r.kind.bits, r.rg, r.word, r.eol⟩

/-- The transfers of the output port so far, the oldest first (R62, R70). -/
def outTransfers (s : State) : List OutSignals := s.stream.out.map OutRecord.signals

/-- The state with a command, under good conduct, as the next transfer of an idle command port. -/
def offerCommand (cmd dat : Word) (s : State) : State :=
  { s with port := .command cmd dat .good :: s.port, busy := false }

end Sys2Proof.Machine
end

