-- ==== Sys2Proof/Machine/Step.lean ====
section
/-! DEFINITION. One step of the machine: the next host event, or none. -/

namespace Sys2Proof.Machine

/-- One step: the first event of the port acts on the CORE; with no event the CORE waits (60_exceptions.md R213,
assumption log 11). -/
def step (s : State) : Host.Outcome State Fault Refusal :=
  match s.port with
  | [] => .next s
  | e :: rest => takeEvent e rest s

/-- The state whose next step runs the command that the decoder reads from `w`: the command port, where this machine
gets its commands from, offers it, and the CORE is not busy (assumption log 1 and 13). -/
def State.withFetchWord (s : State) (nbits w : Nat) : State :=
  offerCommand (tableCmd nbits w) (tableDat nbits w) s

end Sys2Proof.Machine
end

