-- ==== Sys2Proof/Machine/Driver.lean ====
section
/-! DEFINITION. What a host sends: the operand forms of the assembler (30_encoding.md R80), the pseudo-instructions
(R81), and the order of a full export (70_reset_and_hazards.md R223). -/

namespace Sys2Proof.Machine

/-- A register operand of the assembler (R80): a name of the register map, or a raw address. -/
inductive RegRef where
  | named (r : RegName)
  | raw (ra : RegAddr)
  deriving DecidableEq, Repr

/-- The address of a register operand (R80). -/
def RegRef.addr : RegRef → RegAddr
  | .named r => r.addr
  | .raw ra => ra

/-- A line of assembly (R80), after its text has been read (assumption log 18). -/
inductive AsmLine where
  | nop | clr | seg | export_
  | padq (n : Nat) | wcq (n : Nat)
  | wreg (reg : RegRef) (v : Nat)
  | rreg (reg : RegRef)
  | pcm (x : Int) | mulaw (x : Int) | encq (x : Int)
  | pushb (b : Nat)
  | pad (g : Region) | hdr (g : Region) | region (g : Region)
  deriving DecidableEq, Repr

/-- A number that fits a field of `w` bits (R80). -/
def fitting (w n : Nat) : Option (BitVec w) := if n < 2 ^ w then some (BitVec.ofNat w n) else none

/-- The command of a line (R80); `IMM16 = x mod 2^16`, so a negative sample is stored in two's complement. -/
def assemble : AsmLine → Option Instr
  | .nop => some .nop
  | .clr => some .clr
  | .seg => some .seg
  | .export_ => some .exportRun
  | .padq n => (fitting 32 n).map .padq
  | .wcq n => (fitting 32 n).map .wcq
  | .wreg reg v => (fitting 32 v).map (.wreg reg.addr)
  | .rreg reg => some (.rreg reg.addr)
  | .pcm x => some (.pcm (BitVec.ofInt 16 x))
  | .mulaw x => some (.mulaw (BitVec.ofInt 16 x))
  | .encq x => some (.encq (BitVec.ofInt 16 x))
  | .pushb b => (fitting 8 b).map .pushb
  | .pad g => some (.pad g)
  | .hdr g => some (.hdr g)
  | .region g => some (.region g)

/-- `SETMODE m, f` (R81). -/
def pseudoSetMode (m f : Bool) : List Instr :=
  [.wreg RegName.ctrl.addr (bitAt m 0 ||| bitAt f 1)]

/-- `LDMETA s, e, sl, el, d, ld` (R81). -/
def pseudoLdMeta (m : Metadata) : List Instr :=
  [.wreg RegName.startOff.addr m.startOff, .wreg RegName.endOff.addr m.endOff,
   .wreg RegName.sloop.addr m.sloop, .wreg RegName.eloop.addr m.eloop,
   .wreg RegName.dur.addr m.dur, .wreg RegName.ldur.addr m.ldur]

/-- `PUSHW w` (R81). -/
def pseudoPushWord (w : Word) : List Instr :=
  [.pushb (w.extractLsb' 0 8), .pushb (w.extractLsb' 8 8), .pushb (w.extractLsb' 16 8), .pushb (w.extractLsb' 24 8)]

/-- `EXPORTM` (R81). -/
def pseudoExportM : List Instr :=
  [.clr, .seg, .region .attack, .region .loop, .region .decay]

/-- The command transfers of a list of commands, under good conduct (R71). -/
def transfers (is : List Instr) : List HostEvent :=
  is.map (fun i => .command (encode i).1 (encode i).2 .good)

/-- The host places sample bytes from an address of the sample buffer on (R51, R223 step 1). -/
def placeBytes (a : Nat) : List Byte → List HostEvent
  | [] => []
  | b :: rest => .writeSample (BitVec.ofNat 32 a) b :: placeBytes (a + 1) rest

/-- A full export as R223 orders it: the samples, CTRL, the metadata, EXPORT. -/
def bootExport (mode force : Bool) (m : Metadata) (samples : List Byte) : List HostEvent :=
  placeBytes 0 samples ++ transfers (pseudoSetMode mode force ++ pseudoLdMeta m ++ [.exportRun])

end Sys2Proof.Machine
end

