-- ==== Sys2Proof/Safety.lean ====
section
/-! DEFINITION. The terms in which claims speak of a safe run: the invariant of the machine, and the list-based view of
the packer and of a region's bytes that the sequential operations are compared with. -/

namespace Sys2Proof.Machine

/-- `k` steps of the machine, one after the other. -/
def runSteps : Nat → State → Host.Outcome State Fault Refusal
  | 0, s => .next s
  | k + 1, s =>
    match step s with
    | .next t => runSteps k t
    | .fault f => .fault f
    | .refused r => .refused r

/-- The derived registers of a region hold what SEG computes (41_segmenter.md R120; 10_state.md R30 to R32): a count
below 2^24, an even byte length of twice that count, its pad and its word count. -/
structure RegionRegs.Computed (m : Mode) (g : RegionRegs) : Prop where
  count : g.n.toNat < 2 ^ 24
  range : g.re.toNat = g.rb.toNat + 2 * g.n.toNat
  padded : g.pad.toNat = padCount g.n.toNat
  words : g.wc.toNat = wordCount g.n.toNat m

/-- The derived registers hold the results of a SEG without a fatal error (R112, R117): three contiguous ranges from 0
on, each computed, and their word total. -/
structure SegResults.Computed (g : SegResults) : Prop where
  regions : ∀ r, (g.region r).Computed g.smode
  fromZero : g.attack.rb = 0#32
  loopJoins : g.loop.rb = g.attack.re
  decayJoins : g.decay.rb = g.loop.re
  total : g.wcTot.toNat = g.attack.wc.toNat + g.loop.wc.toNat + g.decay.wc.toNat

/-- The derived registers are all 0: as at reset (R42) or after a fatal error (R117). -/
structure SegResults.Blank (g : SegResults) : Prop where
  regions : ∀ r, g.region r = .zero
  total : g.wcTot = 0#32

/-- An output record has the form R38 gives it: the region index of a DATA record is 0 and that of an HDR record is not
3, a header word carries one of the two format tags (R156), and it ends a line only under `P_HDR_LINE` (R153). -/
structure OutRecord.Legal (p : Params) (r : OutRecord) : Prop where
  data : r.kind = .data → r.rg = 0#2
  region : r.rg ≠ 3#2
  tag : r.kind = .hdr → r.word.extractLsb' 24 8 = 0x81#8 ∨ r.word.extractLsb' 24 8 = 0x01#8
  line : r.kind = .hdr → p.hdrLine = false → r.eol = false

/-- A response is one that R200 and R201 allow: no reserved code, an error with a code, and a code without an error only
as a LOOPLEN or ENDLOOP warning. -/
structure Response.Legal (r : Response) : Prop where
  code : r.code.toNat < 8
  error : r.err = true → r.code ≠ 0#4
  warning : r.err = false → r.code = 0#4 ∨ r.code = 6#4 ∨ r.code = 7#4

/-- The invariant of the machine. -/
structure State.Inv (s : State) : Prop where
  /-- The sample buffer is in canonical form. -/
  bufferForm : s.sb.wf = true
  /-- Between steps no command is running, so none is racing with the host. -/
  notRacing : s.sbRacing = false
  /-- The bits of ACC at and above `8 * BCNT` are 0 (R34). -/
  accBits : s.stream.acc.toNat < 2 ^ (8 * s.stream.bcnt.toNat)
  /-- The derived registers are all zero or hold what some SEG computed (R117, R224). -/
  derived : s.seg.Blank ∨ s.seg.Computed
  /-- OK is never set without SEGV (R27, R102). -/
  okValid : s.seg.ok = true → s.seg.segv = true
  /-- Valid results are those of the metadata and CTRL as they stand: never stale (R224). -/
  fresh : s.seg.segv = true → s.seg = segmentOf s.control s.metadata
  /-- DONE is set only by an export that ran, and until the next SEG (R37). -/
  doneComputed : s.sticky.done = true → s.seg.Computed
  /-- Every record emitted is legal. -/
  records : ∀ r ∈ s.stream.out, r.Legal s.params
  /-- Every response sent is legal. -/
  responses : ∀ r ∈ s.rsps, r.Legal

/-- The four byte lanes of a word, lane 0 first (R151). -/
def laneBytes (w : Word) : List Byte :=
  [w.extractLsb' 0 8, w.extractLsb' 8 8, w.extractLsb' 16 8, w.extractLsb' 24 8]

/-- The bytes pending in the packer, the oldest first (R34). -/
def pendingBytes (st : PackedStream) : List Byte := (laneBytes st.acc).take st.bcnt.toNat

/-- The word that four bytes make, the first one lowest (R151). -/
def packedWord (b0 b1 b2 b3 : Byte) : Word :=
  b0.setWidth 32 ||| (b1.setWidth 32 <<< 8) ||| (b2.setWidth 32 <<< 16) ||| (b3.setWidth 32 <<< 24)

/-- The words that a list of bytes closes, four bytes each (R150). -/
def packWords : List Byte → List Word
  | b0 :: b1 :: b2 :: b3 :: rest => packedWord b0 b1 b2 b3 :: packWords rest
  | _ => []

/-- The bytes that a list of bytes leaves pending (R159). -/
def leftoverBytes : List Byte → List Byte
  | _ :: _ :: _ :: _ :: rest => leftoverBytes rest
  | bs => bs

/-- DATA records of a list of words, from line position `l` on: the eighth word of a line ends it (R153). -/
def dataRecords : Nat → List Word → List OutRecord
  | _, [] => []
  | l, w :: ws => ⟨.data, 0#2, w, l % 8 == 7⟩ :: dataRecords (l + 1) ws

/-- The output bytes of one sample (R170). -/
def sampleBytes (m : Mode) (x : Half) : List Byte :=
  match m with
  | .pcm => [lo8 x, hi8 x]
  | .mulaw => [mulawByte x]

/-- The output bytes of a region: its samples in ascending order, then its pad (R170, R171). -/
def regionBytes (s : State) (r : Region) : List Byte :=
  let g := s.seg.region r
  (List.range g.n.toNat).flatMap (fun i => sampleBytes s.seg.smode (readSample s g.rb i))
    ++ List.replicate g.pad.toNat 0x00#8

/-- The header record of a region as R157 emits it, at line position `l`. -/
def headerRecord (s : State) (r : Region) (l : BitVec 3) : OutRecord :=
  ⟨.hdr, r.bits, headerWord (s.seg.region r).n s.seg.smode, s.params.hdrLine && l == 7#3⟩

/-- `T` of 44_sequencer.md R174: the bytes an export pushes. -/
def exportBytes (g : SegResults) : Nat :=
  (g.attack.n.toNat * bytesPerSample g.smode + g.attack.pad.toNat)
    + (g.loop.n.toNat * bytesPerSample g.smode + g.loop.pad.toNat)
    + (g.decay.n.toNat * bytesPerSample g.smode + g.decay.pad.toNat)

/-- The 28 registers of R41 with the value each one reads as (R23 to R34). -/
def registerMap (s : State) : List (RegAddr × Word) :=
  [(0x00#8, BitVec.ofNat 32 ((if s.control.mode = .mulaw then 1 else 0) + (if s.control.force then 2 else 0))),
   (0x01#8, statusWord s),
   (0x02#8, s.metadata.startOff), (0x03#8, s.metadata.endOff), (0x04#8, s.metadata.sloop),
   (0x05#8, s.metadata.eloop), (0x06#8, s.metadata.dur), (0x07#8, s.metadata.ldur),
   (0x08#8, s.stream.acc),
   (0x10#8, s.seg.attack.rb), (0x11#8, s.seg.attack.re), (0x12#8, s.seg.loop.rb),
   (0x13#8, s.seg.loop.re), (0x14#8, s.seg.decay.rb), (0x15#8, s.seg.decay.re),
   (0x18#8, s.seg.attack.n), (0x19#8, s.seg.loop.n), (0x1A#8, s.seg.decay.n),
   (0x1C#8, s.seg.attack.pad), (0x1D#8, s.seg.loop.pad), (0x1E#8, s.seg.decay.pad),
   (0x20#8, s.seg.attack.wc), (0x21#8, s.seg.loop.wc), (0x22#8, s.seg.decay.wc), (0x23#8, s.seg.wcTot),
   (0x24#8, if s.seg.segv = true ∧ s.seg.ok = true then headerWord s.seg.attack.n s.seg.smode else 0#32),
   (0x25#8, if s.seg.segv = true ∧ s.seg.ok = true then headerWord s.seg.loop.n s.seg.smode else 0#32),
   (0x26#8, if s.seg.segv = true ∧ s.seg.ok = true then headerWord s.seg.decay.n s.seg.smode else 0#32)]

/-- What a record shows whatever the samples are (R227): everything but the word of a DATA record. -/
def OutRecord.shape (r : OutRecord) : RecordKind × BitVec 2 × Option Word × Bool :=
  match r.kind with
  | .hdr => (.hdr, r.rg, some r.word, r.eol)
  | .data => (.data, r.rg, none, r.eol)

end Sys2Proof.Machine
end

