-- ==== Sys2Proof/Certificates/Slice0/Obligations.lean ====
section
/-! DEFINITION. The statements for the provers, each from the numbered rules of spec/ that its docstring names. A
statement that fixes the whole next state as an update of the old one is also its frame: what the update does not
name is unchanged. -/

open Sys2Proof Sys2Proof.Machine

/-! ### Control and register access -/

/-- R100: NOP sends its response and changes nothing else; of the words with opcode 0 only the zero word is a NOP, the
others are ILLEGAL; `dat` is ignored. -/
def Obligations.NopOnlyResponds : Prop :=
  (∀ s : State, exec .nop s = .next { s with rsps := s.rsps ++ [⟨0#32, false, 0#4⟩] })
  ∧ (∀ dat : Word, decode 0x00000000#32 dat = .ok .nop)
  ∧ ∀ cmd dat : Word, cmd.extractLsb' 28 4 = 0x0#4 → cmd ≠ 0x00000000#32 → ∃ why, decode cmd dat = .illegal why

/-- R101: CLR clears ACC, BCNT, LCNT, ILL, NRDY and DONE, and nothing else; in particular OUT stays. -/
def Obligations.ClrClearsPackerAndSticky : Prop :=
  (∀ s : State, exec .clr s = .next
    { s with
      stream := { s.stream with acc := 0#32, bcnt := 0#2, lcnt := 0#3 }
      sticky := ⟨false, false, false⟩
      rsps := s.rsps ++ [⟨0#32, false, 0#4⟩] })
  ∧ (∀ dat : Word, decode 0x10000000#32 dat = .ok .clr)
  ∧ ∀ cmd dat : Word, cmd.extractLsb' 28 4 = 0x1#4 → cmd ≠ 0x10000000#32 → ∃ why, decode cmd dat = .illegal why

/-- R102: WREG writes the named RW register (of CTRL only bits 0 and 1), clears SEGV and OK and leaves everything else;
every other RA is ILLEGAL. After a write every HDR_r reads 0, and after `WREG CTRL, 0xFFFFFFFC` CTRL reads 0. -/
def Obligations.WregWritesAndInvalidates : Prop :=
  (∀ (s : State) (dat : Word),
    let stale : SegResults := { s.seg with segv := false, ok := false }
    let rsps := s.rsps ++ [⟨0#32, false, 0#4⟩]
    exec (.wreg 0x00#8 dat) s = .next
        { s with
          control := ⟨if dat.getLsbD 0 then .mulaw else .pcm, dat.getLsbD 1⟩
          seg := stale, rsps := rsps }
    ∧ exec (.wreg 0x02#8 dat) s = .next
        { s with metadata := { s.metadata with startOff := dat }, seg := stale, rsps := rsps }
    ∧ exec (.wreg 0x03#8 dat) s = .next
        { s with metadata := { s.metadata with endOff := dat }, seg := stale, rsps := rsps }
    ∧ exec (.wreg 0x04#8 dat) s = .next
        { s with metadata := { s.metadata with sloop := dat }, seg := stale, rsps := rsps }
    ∧ exec (.wreg 0x05#8 dat) s = .next
        { s with metadata := { s.metadata with eloop := dat }, seg := stale, rsps := rsps }
    ∧ exec (.wreg 0x06#8 dat) s = .next
        { s with metadata := { s.metadata with dur := dat }, seg := stale, rsps := rsps }
    ∧ exec (.wreg 0x07#8 dat) s = .next
        { s with metadata := { s.metadata with ldur := dat }, seg := stale, rsps := rsps }
    ∧ ∀ ra : RegAddr, ra = 0x01#8 ∨ 0x07#8 < ra → exec (.wreg ra dat) s = .next
        { s with
          sticky := { s.sticky with ill := true }
          rsps := s.rsps ++ [⟨0#32, true, 1#4⟩] })
  ∧ (∀ (s : State) (ra : RegAddr) (dat : Word),
      ra ∈ [0x00#8, 0x02#8, 0x03#8, 0x04#8, 0x05#8, 0x06#8, 0x07#8] → ∃ t, exec (.wreg ra dat) s = .next t
        ∧ (∀ ha ∈ [0x24#8, 0x25#8, 0x26#8],
            exec (.rreg ha) t = .next { t with rsps := t.rsps ++ [⟨0#32, false, 0#4⟩] })
        ∧ (ra = 0x00#8 → dat = 0xFFFFFFFC#32 →
            exec (.rreg 0x00#8) t = .next { t with rsps := t.rsps ++ [⟨0#32, false, 0#4⟩] }))
  ∧ ∀ cmd dat : Word, cmd.extractLsb' 28 4 = 0x2#4 →
      (cmd &&& 0xFF00FFFF#32 = 0x20000000#32 → decode cmd dat = .ok (.wreg (cmd.extractLsb' 16 8) dat))
      ∧ (cmd &&& 0xFF00FFFF#32 ≠ 0x20000000#32 → ∃ why, decode cmd dat = .illegal why)

/-- R103: RREG answers the value of each of the 28 registers of R41 and changes nothing; any other RA is ILLEGAL. -/
def Obligations.RregReadsTheRegisterMap : Prop :=
  (∀ (s : State) (p : RegAddr × Word), p ∈ registerMap s →
    exec (.rreg p.1) s = .next { s with rsps := s.rsps ++ [⟨p.2, false, 0#4⟩] })
  ∧ (∀ (s : State) (ra : RegAddr), (∀ p ∈ registerMap s, p.1 ≠ ra) →
    exec (.rreg ra) s = .next
      { s with
        sticky := { s.sticky with ill := true }
        rsps := s.rsps ++ [⟨0#32, true, 1#4⟩] })
  ∧ ∀ cmd dat : Word, cmd.extractLsb' 28 4 = 0x3#4 →
      (cmd &&& 0xFF00FFFF#32 = 0x30000000#32 → decode cmd dat = .ok (.rreg (cmd.extractLsb' 16 8)))
      ∧ (cmd &&& 0xFF00FFFF#32 ≠ 0x30000000#32 → ∃ why, decode cmd dat = .illegal why)

/-- R24: every bit of the STATUS word that RREG answers, the reserved ones 0; a write to STATUS is ILLEGAL. -/
def Obligations.StatusWordBits : Prop :=
  ∀ s : State,
    (∃ d : Word,
      exec (.rreg 0x01#8) s = .next { s with rsps := s.rsps ++ [⟨d, false, 0#4⟩] }
      ∧ d.getLsbD 0 = s.seg.segv ∧ d.getLsbD 1 = s.seg.ok ∧ d.getLsbD 2 = s.sticky.done
      ∧ d.getLsbD 3 = decide (s.seg.smode = .mulaw) ∧ d.getLsbD 4 = s.sticky.ill ∧ d.getLsbD 5 = s.sticky.nrdy
      ∧ d.getLsbD 8 = s.seg.eOrder ∧ d.getLsbD 9 = s.seg.eMalf ∧ d.getLsbD 10 = s.seg.eLen
      ∧ d.getLsbD 11 = s.seg.eLooplen ∧ d.getLsbD 12 = s.seg.eEndloop
      ∧ d.extractLsb' 16 2 = s.stream.bcnt ∧ d.extractLsb' 20 3 = s.stream.lcnt
      ∧ d.getLsbD 24 = decide (s.stream.bcnt ≠ 0#2)
      ∧ ∀ k ∈ [6, 7, 13, 14, 15, 18, 19, 23, 25, 26, 27, 28, 29, 30, 31], d.getLsbD k = false)
    ∧ ∀ v : Word, exec (.wreg 0x01#8 v) s = .next
        { s with
          sticky := { s.sticky with ill := true }
          rsps := s.rsps ++ [⟨0#32, true, 1#4⟩] }

/-- R23: of a word written to CTRL, only bits 0 and 1 read back. -/
def Obligations.CtrlReadsBackTwoBits : Prop :=
  ∀ (s : State) (v : Word), ∃ t, exec (.wreg 0x00#8 v) s = .next t
    ∧ exec (.rreg 0x00#8) t = .next { t with rsps := t.rsps ++ [⟨v &&& 0x00000003#32, false, 0#4⟩] }

/-- R224: a WREG of CTRL or a metadata register makes each region command NOTREADY and each HDR_r read 0, and leaves the
derived registers, SMODE and the validation bits as they were. -/
def Obligations.StaleSegmentationRefused : Prop :=
  ∀ (s : State) (ra : RegAddr) (dat : Word), ra ∈ [0x00#8, 0x02#8, 0x03#8, 0x04#8, 0x05#8, 0x06#8, 0x07#8] →
    ∃ t, exec (.wreg ra dat) s = .next t
      ∧ t.seg = { s.seg with segv := false, ok := false }
      ∧ (∀ (r : Region) (i : Instr), i ∈ [.pad r, .hdr r, .region r] →
          exec i t = .next
            { t with
              sticky := { t.sticky with nrdy := true }
              rsps := t.rsps ++ [⟨0#32, true, 2#4⟩] })
      ∧ ∀ ha ∈ [0x24#8, 0x25#8, 0x26#8],
          exec (.rreg ha) t = .next { t with rsps := t.rsps ++ [⟨0#32, false, 0#4⟩] }

/-! ### The region alignment calculator -/

/-- R113 to R116: the five checks of SEG and what they do to OK. MALFORMED and LENGTH are evaluated only when the order
holds; ORDER, MALFORMED and LENGTH are fatal whatever FORCE is, LOOPLEN and ENDLOOP only without FORCE. -/
def Obligations.SegChecksAndPolicy : Prop :=
  ∀ s : State, ∃ t, exec .seg s = .next t ∧
    let start := s.metadata.startOff.toNat
    let stop := s.metadata.endOff.toNat
    let sloop := s.metadata.sloop.toNat
    let eloop := s.metadata.eloop.toNat
    let ordered := start ≤ sloop ∧ sloop ≤ eloop ∧ eloop ≤ stop
    (t.seg.eOrder = true ↔ ¬ordered)
    ∧ (t.seg.eMalf = true ↔
        ordered ∧ ((sloop - start) % 2 = 1 ∨ (eloop - sloop) % 2 = 1 ∨ (stop - eloop) % 2 = 1))
    ∧ (t.seg.eLen = true ↔
        ordered ∧ (2 ^ 24 ≤ (sloop - start) / 2 ∨ 2 ^ 24 ≤ (eloop - sloop) / 2 ∨ 2 ^ 24 ≤ (stop - eloop) / 2))
    ∧ (t.seg.eLooplen = true ↔ s.metadata.dur.toNat ≤ s.metadata.ldur.toNat)
    ∧ (t.seg.eEndloop = true ↔ s.metadata.dur.toNat < eloop)
    ∧ (t.seg.ok = true ↔
        t.seg.eOrder = false ∧ t.seg.eMalf = false ∧ t.seg.eLen = false
        ∧ ((t.seg.eLooplen = false ∧ t.seg.eEndloop = false) ∨ s.control.force = true))

/-- R112 and R117: SEG latches MODE, sets SEGV, and gives the derived registers their values; with a fatal bit all of
them are 0, else they are the byte ranges relative to START, the counts, the pads and the word counts, none wrapped. -/
def Obligations.SegDerivedRegisters : Prop :=
  ∀ s : State, ∃ t, exec .seg s = .next t ∧
    let start := s.metadata.startOff.toNat
    let stop := s.metadata.endOff.toNat
    let sloop := s.metadata.sloop.toNat
    let eloop := s.metadata.eloop.toNat
    let holds (g : RegionRegs) (lo hi : Nat) :=
      g.rb.toNat = lo ∧ g.re.toNat = hi ∧ g.n.toNat = (hi - lo) / 2
      ∧ g.pad.toNat = padCount ((hi - lo) / 2) ∧ g.wc.toNat = wordCount ((hi - lo) / 2) s.control.mode
    t.seg.smode = s.control.mode ∧ t.seg.segv = true
    ∧ ((t.seg.eOrder || t.seg.eMalf || t.seg.eLen) = true →
        t.seg.attack = ⟨0#32, 0#32, 0#32, 0#32, 0#32⟩ ∧ t.seg.loop = ⟨0#32, 0#32, 0#32, 0#32, 0#32⟩
        ∧ t.seg.decay = ⟨0#32, 0#32, 0#32, 0#32, 0#32⟩ ∧ t.seg.wcTot = 0#32)
    ∧ ((t.seg.eOrder || t.seg.eMalf || t.seg.eLen) = false →
        holds t.seg.attack 0 (sloop - start)
        ∧ holds t.seg.loop (sloop - start) (eloop - start)
        ∧ holds t.seg.decay (eloop - start) (stop - start)
        ∧ t.seg.wcTot.toNat = t.seg.attack.wc.toNat + t.seg.loop.wc.toNat + t.seg.decay.wc.toNat)

/-- R117, R204, R205: SEG answers WC_TOT, an error exactly when OK is 0, and the code of the first bit set; it writes the
segmenter results, clears DONE and changes nothing else. -/
def Obligations.SegRespondsByPriority : Prop :=
  (∀ s : State, ∃ t, exec .seg s = .next t ∧ t =
    { s with
      seg := t.seg
      sticky := { s.sticky with done := false }
      rsps := s.rsps ++ [⟨t.seg.wcTot, !t.seg.ok,
        if t.seg.eOrder then 3#4 else if t.seg.eMalf then 4#4 else if t.seg.eLen then 5#4
        else if t.seg.eLooplen then 6#4 else if t.seg.eEndloop then 7#4 else 0#4⟩] })
  ∧ (∀ dat : Word, decode 0x40000000#32 dat = .ok .seg)
  ∧ ∀ cmd dat : Word, cmd.extractLsb' 28 4 = 0x4#4 → cmd ≠ 0x40000000#32 → ∃ why, decode cmd dat = .illegal why

/-- R118: PADQ answers the pad count of its operand and changes nothing. -/
def Obligations.PadqAnswersPadCount : Prop :=
  (∀ (s : State) (n : Word), exec (.padq n) s = .next
    { s with rsps := s.rsps ++ [⟨BitVec.ofNat 32 ((128 - n.toNat % 128) % 128), false, 0#4⟩] })
  ∧ (∀ dat : Word, decode 0x50000000#32 dat = .ok (.padq dat))
  ∧ ∀ cmd dat : Word, cmd.extractLsb' 28 4 = 0x5#4 → cmd ≠ 0x50000000#32 → ∃ why, decode cmd dat = .illegal why

/-- R119: WCQ answers the word count of its operand in the live mode, exactly, and changes nothing. -/
def Obligations.WcqAnswersWordCount : Prop :=
  (∀ (s : State) (n : Word), ∃ d : Word,
    exec (.wcq n) s = .next { s with rsps := s.rsps ++ [⟨d, false, 0#4⟩] }
    ∧ d.toNat = ((n.toNat + (128 - n.toNat % 128) % 128) * (if s.control.mode = .mulaw then 1 else 2) + 3) / 4 + 1)
  ∧ (∀ dat : Word, decode 0x60000000#32 dat = .ok (.wcq dat))
  ∧ ∀ cmd dat : Word, cmd.extractLsb' 28 4 = 0x6#4 → cmd ≠ 0x60000000#32 → ∃ why, decode cmd dat = .illegal why

/-- R110: the pad count, its three properties, and the rule's examples. Its form on the low seven bits is one that the rule
marks as derived from its formula. -/
def Obligations.PadCountLaws : Prop :=
  (∀ n : Nat,
    padCount n = (128 - n % 128) % 128
    ∧ padCount n ≤ 127
    ∧ (n + padCount n) % 128 = 0
    ∧ (padCount n = 0 ↔ n % 128 = 0)
    ∧ padCount n = (~~~(BitVec.ofNat 7 n) + 1#7).toNat)
  ∧ padCount 0 = 0 ∧ padCount 1 = 127 ∧ padCount 127 = 1 ∧ padCount 128 = 0 ∧ padCount 300 = 84

/-- The four laws of R120, which the spec derives from R110 to R117 ("Each follows from rules R110 to R117"). -/
def Obligations.SegmenterLaws : Prop :=
  (∀ n : Nat, padCount n ≤ 127 ∧ (n + padCount n) % 128 = 0)
  ∧ (∀ (n : Nat) (m : Mode), 1 ≤ wordCount n m ∧ (wordCount n m = 1 ↔ n = 0))
  ∧ (∀ m : Metadata, orderViolated m = false → ∀ a : Nat,
      (a < m.endOff.toNat - m.startOff.toNat ↔ ∃ r, rangeStart m r ≤ a ∧ a < rangeEnd m r)
      ∧ ∀ r r' : Region, rangeStart m r ≤ a → a < rangeEnd m r → rangeStart m r' ≤ a → a < rangeEnd m r' → r = r')
  ∧ ∀ s : State, (segmentOf s.control s.metadata).ok = true → ∃ t, exec .seg s = .next t
      ∧ ∀ r : Region,
        (t.seg.region r).n.toNat < 2 ^ 24
        ∧ ((t.seg.region r).re.toNat - (t.seg.region r).rb.toNat) % 2 = 0
        ∧ (t.seg.region r).wc.toNat
            = ((t.seg.region r).n.toNat + (t.seg.region r).pad.toNat) * bytesPerSample t.seg.smode / 4 + 1

/-! ### The sample encoder -/

/-- R130: the eight rows of the tier table, (code, shift, least and greatest input magnitude); together the magnitude
ranges take in every input. -/
def Obligations.MulawTierTable : Prop :=
  (∀ (x : Half) (code : Byte) (shift lo hi : Nat),
    (code, shift, lo, hi) ∈
      [(0x70#8, 10, 16256, 32768), (0x60#8, 9, 8064, 16255), (0x50#8, 8, 3968, 8063), (0x40#8, 7, 1920, 3967),
       (0x30#8, 6, 896, 1919), (0x20#8, 5, 384, 895), (0x10#8, 4, 128, 383), (0x00#8, 3, 0, 127)] →
    lo ≤ x.toInt.natAbs → x.toInt.natAbs ≤ hi →
    mulawByte x =
      (if x.toInt < 0 then 0x80#8 else 0x00#8) ||| code
        ||| BitVec.ofNat 8 ((min (x.toInt.natAbs + 128) 0x7FFF >>> shift) &&& 0x0F))
  ∧ ∀ x : Half, x.toInt.natAbs ≤ 32768

/-- The closed form of the µ-law function, which R131 marks as derived from R130. -/
def Obligations.MulawClosedForm : Prop :=
  ∀ x : Half,
    let mag := min (x.toInt.natAbs + 128) 0x7FFF
    let k := Nat.log2 mag - 7
    k ≤ 7 ∧ mulawByte x =
      (if x.toInt < 0 then 0x80#8 else 0x00#8) ||| BitVec.ofNat 8 (k <<< 4)
        ||| BitVec.ofNat 8 ((mag >>> (k + 3)) &&& 0x0F)

/-- Laws that R132 marks as derived from R130: the µ-law function is monotone in the magnitude of each sign, takes every
code, and its bit 7 is the sign; the smallest and greatest inputs have the codes R132 names. -/
def Obligations.MulawMonotoneAndOnto : Prop :=
  (∀ x y : Half, 0 ≤ x.toInt → x.toInt ≤ y.toInt → (mulawByte x).toNat ≤ (mulawByte y).toNat)
  ∧ (∀ x y : Half, x.toInt < 0 → y.toInt ≤ x.toInt → (mulawByte x).toNat ≤ (mulawByte y).toNat)
  ∧ (∀ c : Byte, ∃ x : Half, mulawByte x = c)
  ∧ (∀ x : Half, (mulawByte x).getLsbD 7 = decide (x.toInt < 0))
  ∧ (∀ x : Half, 0 ≤ x.toInt → x.toInt ≤ 7 → mulawByte x = 0x00#8)
  ∧ (∀ x : Half, -7 ≤ x.toInt → x.toInt ≤ -1 → mulawByte x = 0x80#8)
  ∧ mulawByte 0x7FFF#16 = 0x7F#8 ∧ mulawByte 0x8001#16 = 0xFF#8 ∧ mulawByte 0x8000#16 = 0xFF#8

/-- R133: PCM pushes the low byte of its sample and then the high byte, and changes nothing but the packer and OUT. -/
def Obligations.PcmPushesLowThenHigh : Prop :=
  (∀ (s : State) (x : Half), exec (.pcm x) s = .next
    { s with
      stream := push (x.extractLsb' 8 8) (push (x.extractLsb' 0 8) s.stream)
      rsps := s.rsps ++ [⟨0#32, false, 0#4⟩] })
  ∧ ∀ cmd dat : Word, cmd.extractLsb' 28 4 = 0x7#4 →
      (cmd &&& 0xFFFF0000#32 = 0x70000000#32 → decode cmd dat = .ok (.pcm (cmd.extractLsb' 0 16)))
      ∧ (cmd &&& 0xFFFF0000#32 ≠ 0x70000000#32 → ∃ why, decode cmd dat = .illegal why)

/-- R134: MULAW pushes the µ-law code of its sample, and changes nothing but the packer and OUT. -/
def Obligations.MulawPushesTheCode : Prop :=
  (∀ (s : State) (x : Half), exec (.mulaw x) s = .next
    { s with
      stream := push (mulawByte x) s.stream
      rsps := s.rsps ++ [⟨0#32, false, 0#4⟩] })
  ∧ ∀ cmd dat : Word, cmd.extractLsb' 28 4 = 0x8#4 →
      (cmd &&& 0xFFFF0000#32 = 0x80000000#32 → decode cmd dat = .ok (.mulaw (cmd.extractLsb' 0 16)))
      ∧ (cmd &&& 0xFFFF0000#32 ≠ 0x80000000#32 → ∃ why, decode cmd dat = .illegal why)

/-- R135: ENCQ answers the µ-law code of its sample, zero-extended, and changes nothing. -/
def Obligations.EncqAnswersTheCode : Prop :=
  (∀ (s : State) (x : Half), exec (.encq x) s = .next
    { s with rsps := s.rsps ++ [⟨(mulawByte x).setWidth 32, false, 0#4⟩] })
  ∧ ∀ cmd dat : Word, cmd.extractLsb' 28 4 = 0x9#4 →
      (cmd &&& 0xFFFF0000#32 = 0x90000000#32 → decode cmd dat = .ok (.encq (cmd.extractLsb' 0 16)))
      ∧ (cmd &&& 0xFFFF0000#32 ≠ 0x90000000#32 → ∃ why, decode cmd dat = .illegal why)

/-! ### The packer -/

/-- R150, R152: the fourth byte closes the word, appends it as a counted DATA record and clears ACC and BCNT; any other
byte goes to its lane. -/
def Obligations.PushClosesOnFourthByte : Prop :=
  ∀ (b : Byte) (st : PackedStream),
    (st.bcnt = 3#2 → push b st =
      { acc := 0#32, bcnt := 0#2, lcnt := st.lcnt + 1#3,
        out := st.out ++ [⟨.data, 0#2, st.acc ||| (b.setWidth 32 <<< 24), decide (st.lcnt = 7#3)⟩] })
    ∧ (st.bcnt ≠ 3#2 → push b st =
      { st with acc := st.acc ||| (b.setWidth 32 <<< (8 * st.bcnt.toNat)), bcnt := st.bcnt + 1#2 })

/-- R154: PUSHB pushes its byte, and changes nothing but the packer and OUT. -/
def Obligations.PushbPushesItsByte : Prop :=
  (∀ (s : State) (b : Byte), exec (.pushb b) s = .next
    { s with
      stream := push b s.stream
      rsps := s.rsps ++ [⟨0#32, false, 0#4⟩] })
  ∧ ∀ cmd dat : Word, cmd.extractLsb' 28 4 = 0xA#4 →
      (cmd &&& 0xFFFFFF00#32 = 0xA0000000#32 → decode cmd dat = .ok (.pushb (cmd.extractLsb' 0 8)))
      ∧ (cmd &&& 0xFFFFFF00#32 ≠ 0xA0000000#32 → ∃ why, decode cmd dat = .illegal why)

/-- R151: four PUSHB commands from BCNT = 0 (and an empty ACC, which R34 makes of it) close one word with the first byte
in its lowest lane. The commands run as four steps of the machine. -/
def Obligations.FourBytesCloseOneWord : Prop :=
  ∀ (s : State) (b0 b1 b2 b3 : Byte) (rest : List HostEvent),
    s.busy = false → s.sbRacing = false → s.stream.bcnt = 0#2 → s.stream.acc = 0#32 →
    runSteps 4 { s with port := transfers [.pushb b0, .pushb b1, .pushb b2, .pushb b3] ++ rest } = .next
      { s with
        port := rest
        stream :=
          { acc := 0#32, bcnt := 0#2, lcnt := s.stream.lcnt + 1#3,
            out := s.stream.out ++
              [⟨.data, 0#2,
                b0.setWidth 32 ||| (b1.setWidth 32 <<< 8) ||| (b2.setWidth 32 <<< 16) ||| (b3.setWidth 32 <<< 24),
                decide (s.stream.lcnt = 7#3)⟩] }
        rsps := s.rsps ++ List.replicate 4 ⟨0#32, false, 0#4⟩ }

/-- R150 to R153 and R159 for any sequence of bytes: pushed one by one, they emit exactly the words that the pending bytes
and they make four at a time, in order, every eighth word of the line counter ending a line, and the bytes left over stay
pending. -/
def Obligations.PackerIsAByteStream : Prop :=
  ∀ (bs : List Byte) (st : PackedStream), st.acc.toNat < 2 ^ (8 * st.bcnt.toNat) →
    let u := bs.foldl (fun st b => push b st) st
    let words := packWords (pendingBytes st ++ bs)
    u.out = st.out ++ dataRecords st.lcnt.toNat words
    ∧ pendingBytes u = leftoverBytes (pendingBytes st ++ bs)
    ∧ u.bcnt.toNat = (st.bcnt.toNat + bs.length) % 4
    ∧ u.lcnt.toNat = (st.lcnt.toNat + words.length) % 8
    ∧ u.acc.toNat < 2 ^ (8 * u.bcnt.toNat)

/-- R156: the header word of a count below 2^24 has the tag in bits 31:24 and the count in bits 23:0; the rule's
examples. -/
def Obligations.HeaderWordLayout : Prop :=
  (∀ (n : Word) (m : Mode), n.toNat < 2 ^ 24 →
    headerWord n m = n ||| ((if m = .mulaw then 0x01#32 else 0x81#32) <<< 24)
    ∧ (headerWord n m).extractLsb' 24 8 = (if m = .mulaw then 0x01#8 else 0x81#8)
    ∧ ((headerWord n m).extractLsb' 0 24).toNat = n.toNat)
  ∧ headerWord 128#32 .pcm = 0x81000080#32 ∧ headerWord 4#32 .mulaw = 0x01000004#32
  ∧ headerWord 0#32 .pcm = 0x81000000#32

/-- R155: PAD pushes PAD_r single zero bytes in either mode, and changes nothing but the packer and OUT; without SEGV and
OK it is NOTREADY, and RG = 3 is ILLEGAL. That it appends floor((BCNT + PAD_r) / 4) records the rule derives from R150. -/
def Obligations.PadPushesZeroBytes : Prop :=
  (∀ (s : State) (r : Region), s.seg.segv = true → s.seg.ok = true → ∃ st,
    exec (.pad r) s = .next { s with stream := st, rsps := s.rsps ++ [⟨0#32, false, 0#4⟩] }
    ∧ st = (push 0x00#8)^[(s.seg.region r).pad.toNat] s.stream
    ∧ st.out.length = s.stream.out.length + (s.stream.bcnt.toNat + (s.seg.region r).pad.toNat) / 4
    ∧ st.bcnt.toNat = (s.stream.bcnt.toNat + (s.seg.region r).pad.toNat) % 4)
  ∧ (∀ (s : State) (r : Region), ¬(s.seg.segv = true ∧ s.seg.ok = true) → exec (.pad r) s = .next
      { s with sticky := { s.sticky with nrdy := true }, rsps := s.rsps ++ [⟨0#32, true, 2#4⟩] })
  ∧ ∀ dat : Word,
      decode 0xB0000000#32 dat = .ok (.pad .attack) ∧ decode 0xB1000000#32 dat = .ok (.pad .loop)
      ∧ decode 0xB2000000#32 dat = .ok (.pad .decay)
      ∧ ∀ cmd : Word, cmd.extractLsb' 28 4 = 0xB#4 → cmd ∉ [0xB0000000#32, 0xB1000000#32, 0xB2000000#32] →
          ∃ why, decode cmd dat = .illegal why

/-- R157, R158: HDR emits the region's header record directly. ACC and BCNT are unchanged, and LCNT too unless
P_HDR_LINE. RG = 3 is ILLEGAL. -/
def Obligations.HdrEmitsTheHeader : Prop :=
  (∀ (s : State) (r : Region), s.seg.segv = true → s.seg.ok = true → exec (.hdr r) s = .next
    { s with
      stream :=
        { s.stream with
          lcnt := if s.params.hdrLine then s.stream.lcnt + 1#3 else s.stream.lcnt
          out := s.stream.out ++
            [⟨.hdr, (match r with | .attack => 0#2 | .loop => 1#2 | .decay => 2#2),
              headerWord (s.seg.region r).n s.seg.smode,
              s.params.hdrLine && decide (s.stream.lcnt = 7#3)⟩] }
      rsps := s.rsps ++ [⟨0#32, false, 0#4⟩] })
  ∧ (∀ (s : State) (r : Region), ¬(s.seg.segv = true ∧ s.seg.ok = true) → exec (.hdr r) s = .next
      { s with sticky := { s.sticky with nrdy := true }, rsps := s.rsps ++ [⟨0#32, true, 2#4⟩] })
  ∧ ∀ dat : Word,
      decode 0xC0000000#32 dat = .ok (.hdr .attack) ∧ decode 0xC1000000#32 dat = .ok (.hdr .loop)
      ∧ decode 0xC2000000#32 dat = .ok (.hdr .decay)
      ∧ ∀ cmd : Word, cmd.extractLsb' 28 4 = 0xC#4 → cmd ∉ [0xC0000000#32, 0xC1000000#32, 0xC2000000#32] →
          ∃ why, decode cmd dat = .illegal why

/-! ### Regions and exports -/

/-- R53: a sample is read little-endian, its low byte at `RB + 2 i`, where the address does not wrap, and it is signed. -/
def Obligations.SampleReadIsLittleEndian : Prop :=
  ∀ (s : State) (rb : Word) (i : Nat), s.sbRacing = false → rb.toNat + 2 * i + 1 < 2 ^ 32 →
    let x := (s.sb.read (rb.toNat + 2 * i)).toNat + 256 * (s.sb.read (rb.toNat + 2 * i + 1)).toNat
    (readSample s rb i).toNat = x ∧ (readSample s rb i).toInt = if 2 ^ 15 ≤ x then (x : Int) - 65536 else x

/-- R170: REGION appends the header record, then the DATA words made of the pending bytes, the region's sample
bytes in ascending order and its pad bytes, 1 + floor((BCNT + N_r * BPS + PAD_r) / 4) records in all; it answers that
number, leaves the left-over bytes pending, and changes nothing but the packer and OUT. Without SEGV and OK it is
NOTREADY, and RG = 3 is ILLEGAL. The number of records is one that the rule derives from R150. The premise on ACC is R34's
invariant. -/
def Obligations.RegionEmitsPackedBytes : Prop :=
  (∀ (s : State) (r : Region), s.seg.segv = true → s.seg.ok = true →
    s.stream.acc.toNat < 2 ^ (8 * s.stream.bcnt.toNat) → ∃ st,
      exec (.region r) s = .next
        { s with
          stream := st
          rsps := s.rsps ++ [⟨BitVec.ofNat 32 (st.out.length - s.stream.out.length), false, 0#4⟩] }
      ∧ st.out = s.stream.out ++ [headerRecord s r s.stream.lcnt]
          ++ dataRecords (if s.params.hdrLine then s.stream.lcnt + 1#3 else s.stream.lcnt).toNat
              (packWords (pendingBytes s.stream ++ regionBytes s r))
      ∧ pendingBytes st = leftoverBytes (pendingBytes s.stream ++ regionBytes s r)
      ∧ st.acc.toNat < 2 ^ (8 * st.bcnt.toNat)
      ∧ st.lcnt.toNat = ((if s.params.hdrLine then s.stream.lcnt + 1#3 else s.stream.lcnt).toNat
          + (packWords (pendingBytes s.stream ++ regionBytes s r)).length) % 8
      ∧ st.out.length = s.stream.out.length + 1
          + (s.stream.bcnt.toNat + (s.seg.region r).n.toNat * bytesPerSample s.seg.smode
              + (s.seg.region r).pad.toNat) / 4)
  ∧ (∀ (s : State) (r : Region), ¬(s.seg.segv = true ∧ s.seg.ok = true) → exec (.region r) s = .next
      { s with sticky := { s.sticky with nrdy := true }, rsps := s.rsps ++ [⟨0#32, true, 2#4⟩] })
  ∧ ∀ dat : Word,
      decode 0xD0000000#32 dat = .ok (.region .attack) ∧ decode 0xD1000000#32 dat = .ok (.region .loop)
      ∧ decode 0xD2000000#32 dat = .ok (.region .decay)
      ∧ ∀ cmd : Word, cmd.extractLsb' 28 4 = 0xD#4 → cmd ∉ [0xD0000000#32, 0xD1000000#32, 0xD2000000#32] →
          ∃ why, decode cmd dat = .illegal why

/-- R203: PAD, HDR and REGION without SEGV = 1 and OK = 1 answer NOTREADY, set NRDY and change nothing else. -/
def Obligations.RegionCommandsNotReady : Prop :=
  ∀ (s : State) (r : Region) (i : Instr), i ∈ [.pad r, .hdr r, .region r] →
    ¬(s.seg.segv = true ∧ s.seg.ok = true) → exec i s = .next
      { s with
        sticky := { s.sticky with nrdy := true }
        rsps := s.rsps ++ [⟨0#32, true, 2#4⟩] }

/-- R172: an EXPORT whose SEG gives OK = 1 starts from a cleared packer and appends the three regions in the order A, L, D,
each its header and then the words of the bytes pending from the region before, its samples and its pad; it sets DONE,
clears ILL and NRDY, leaves the bytes over of the last region pending, and answers WC_TOT with the warning code if there is
one. `h` counts a header on its line. With OK = 0 it has the effects of CLR and of SEG, emits no record and answers the
validation code. Of the words with opcode 0xE only one is an EXPORT. -/
def Obligations.ExportEmitsPackedRegions : Prop :=
  (∀ s : State, (segmentOf s.control s.metadata).ok = true →
    let g := segmentOf s.control s.metadata
    let u : State := { s with seg := g }
    let h := if s.params.hdrLine then 1 else 0
    let bytesA := regionBytes u .attack
    let bytesL := leftoverBytes bytesA ++ regionBytes u .loop
    let bytesD := leftoverBytes bytesL ++ regionBytes u .decay
    let lineL := h + (packWords bytesA).length
    let lineD := lineL + h + (packWords bytesL).length
    ∃ st, exec .exportRun s = .next
        { s with
          seg := g
          stream := st
          sticky := ⟨false, false, true⟩
          rsps := s.rsps ++ [⟨g.wcTot, false, if g.eLooplen then 6#4 else if g.eEndloop then 7#4 else 0#4⟩] }
      ∧ st.out = s.stream.out
          ++ [headerRecord u .attack 0#3] ++ dataRecords h (packWords bytesA)
          ++ [headerRecord u .loop (BitVec.ofNat 3 lineL)] ++ dataRecords (lineL + h) (packWords bytesL)
          ++ [headerRecord u .decay (BitVec.ofNat 3 lineD)] ++ dataRecords (lineD + h) (packWords bytesD)
      ∧ pendingBytes st = leftoverBytes bytesD
      ∧ st.acc.toNat < 2 ^ (8 * st.bcnt.toNat)
      ∧ st.lcnt = BitVec.ofNat 3 (lineD + h + (packWords bytesD).length))
  ∧ (∀ s : State, (segmentOf s.control s.metadata).ok = false →
    let g := segmentOf s.control s.metadata
    exec .exportRun s = .next
      { s with
        seg := g
        stream := { s.stream with acc := 0#32, bcnt := 0#2, lcnt := 0#3 }
        sticky := ⟨false, false, false⟩
        rsps := s.rsps ++ [⟨0#32, true,
          if g.eOrder then 3#4 else if g.eMalf then 4#4 else if g.eLen then 5#4
          else if g.eLooplen then 6#4 else if g.eEndloop then 7#4 else 0#4⟩] })
  ∧ (∀ dat : Word, decode 0xE0000000#32 dat = .ok .exportRun)
  ∧ ∀ cmd dat : Word, cmd.extractLsb' 28 4 = 0xE#4 → cmd ≠ 0xE0000000#32 → ∃ why, decode cmd dat = .illegal why

/-- What R174 derives from R170, R172 and R111: how many records a successful EXPORT emits and how many bytes it leaves,
against the declared word counts. In µ-law mode the two agree, region by region; in PCM mode the declared total is
greater by ceil(sum of PAD_r / 4). -/
def Obligations.ExportRecordCount : Prop :=
  ∀ s : State, (segmentOf s.control s.metadata).ok = true → ∃ t, exec .exportRun s = .next t
    ∧ t.stream.out.length = s.stream.out.length + 3 + exportBytes t.seg / 4
    ∧ t.stream.bcnt.toNat = exportBytes t.seg % 4
    ∧ (t.seg.smode = .mulaw →
        t.stream.out.length = s.stream.out.length + t.seg.wcTot.toNat
        ∧ t.stream.bcnt = 0#2
        ∧ ∀ r : Region, (packWords (regionBytes t r)).length = (t.seg.region r).wc.toNat - 1)
    ∧ (t.seg.smode = .pcm →
        t.seg.wcTot.toNat + s.stream.out.length = t.stream.out.length
          + (t.seg.attack.pad.toNat + t.seg.loop.pad.toNat + t.seg.decay.pad.toNat + 3) / 4
        ∧ (t.stream.out.length = s.stream.out.length + t.seg.wcTot.toNat ↔ ∀ r : Region, (t.seg.region r).pad = 0#32))

/-- What R175 and R81 derive from R170, R172 and R101: the pseudo-instruction EXPORTM, run as five steps, ends with the
same records, packer and segmenter state as EXPORT where SEG gives OK = 1; only DONE and the responses differ. The steps
over a queue of transfers are the model's convention (assumption log 1). `ExportMNotReadyWhenRefused` is R81's other
half, OK = 0. -/
def Obligations.ExportEqualsExportM : Prop :=
  ∀ (s : State) (rest : List HostEvent), s.busy = false → s.sbRacing = false →
    (segmentOf s.control s.metadata).ok = true →
    ∃ t rsps, exec .exportRun s = .next t ∧ t.sticky.done = true ∧ rsps.length = 5
      ∧ runSteps 5 { s with port := transfers pseudoExportM ++ rest } = .next
          { t with
            port := rest
            sticky := { t.sticky with done := false }
            rsps := s.rsps ++ rsps }

/-- R81, where SEG gives OK = 0: each REGION of EXPORTM is NOTREADY, where EXPORT skips it. Neither emits a record; the
five steps end in the state that EXPORT answers, but for NRDY, which they set, and for the five responses in the place
of one. The steps over a queue of transfers are the model's convention (assumption log 1). -/
def Obligations.ExportMNotReadyWhenRefused : Prop :=
  ∀ (s : State) (rest : List HostEvent), s.busy = false → s.sbRacing = false →
    (segmentOf s.control s.metadata).ok = false →
    ∃ t code, exec .exportRun s = .next t ∧ t.stream.out = s.stream.out
      ∧ t.rsps = s.rsps ++ [⟨0#32, true, code⟩]
      ∧ runSteps 5 { s with port := transfers pseudoExportM ++ rest } = .next
          { t with
            port := rest
            sticky := { t.sticky with nrdy := true }
            rsps := s.rsps ++ [⟨0#32, false, 0#4⟩, ⟨t.seg.wcTot, true, code⟩,
              ⟨0#32, true, 2#4⟩, ⟨0#32, true, 2#4⟩, ⟨0#32, true, 2#4⟩] }

/-- R70's coding of the output port: HDR transfers one header, with `out_kind` 1 and the region's number on `out_rg`, and
a PUSHB that closes a word transfers it with `out_kind` 0 and `out_rg` 0, each after the transfers so far; PUSHB
transfers nothing else. The transfers are read off OUT, the model's history of them (assumption log 16). -/
def Obligations.OutputPortCarriesTheRecords : Prop :=
  (∀ (s : State) (r : Region), s.seg.segv = true → s.seg.ok = true → ∃ t, exec (.hdr r) s = .next t
    ∧ outTransfers t = outTransfers s ++
        [⟨1#1, match r with | .attack => 0#2 | .loop => 1#2 | .decay => 2#2,
          headerWord (s.seg.region r).n s.seg.smode, s.params.hdrLine && s.stream.lcnt == 7#3⟩])
  ∧ ∀ (s : State) (b : Byte), ∃ t, exec (.pushb b) s = .next t
    ∧ (s.stream.bcnt = 3#2 → outTransfers t = outTransfers s ++
        [⟨0#1, 0#2, s.stream.acc ||| (b.setWidth 32 <<< 24), s.stream.lcnt == 7#3⟩])
    ∧ (s.stream.bcnt ≠ 3#2 → outTransfers t = outTransfers s)

/-! ### Encodings -/

/-- R76 to R78: a word is a command exactly when it matches one row of the opcode table, given as (match, mask), and, in
the R format, its RG is not 3; otherwise it is ILLEGAL. -/
def Obligations.DecodeAcceptsTheOpcodeTable : Prop :=
  ∀ cmd dat : Word,
    let rows : List (Word × Word) :=
      [(0x00000000#32, 0xFFFFFFFF#32), (0x10000000#32, 0xFFFFFFFF#32), (0x20000000#32, 0xFF00FFFF#32),
       (0x30000000#32, 0xFF00FFFF#32), (0x40000000#32, 0xFFFFFFFF#32), (0x50000000#32, 0xFFFFFFFF#32),
       (0x60000000#32, 0xFFFFFFFF#32), (0x70000000#32, 0xFFFF0000#32), (0x80000000#32, 0xFFFF0000#32),
       (0x90000000#32, 0xFFFF0000#32), (0xA0000000#32, 0xFFFFFF00#32), (0xB0000000#32, 0xFCFFFFFF#32),
       (0xC0000000#32, 0xFCFFFFFF#32), (0xD0000000#32, 0xFCFFFFFF#32), (0xE0000000#32, 0xFFFFFFFF#32)]
    let legal := ∃ row ∈ rows, cmd &&& row.2 = row.1 ∧ (row.2 = 0xFCFFFFFF#32 → cmd.extractLsb' 24 2 ≠ 3#2)
    (legal ↔ ∃ i, decode cmd dat = .ok i) ∧ (¬legal ↔ ∃ why, decode cmd dat = .illegal why)

/-- R76, R77: the decoder gives back every command from its encoding, with every operand. -/
def Obligations.DecodeOfEncode : Prop :=
  ∀ i : Instr, decode (encode i).1 (encode i).2 = .ok i

/-- R74, R76, R79: a word that decodes to a command is that command's encoding, and so is its operand where the command
uses it. -/
def Obligations.EncodeOfDecode : Prop :=
  ∀ (cmd dat : Word) (i : Instr), decode cmd dat = .ok i →
    (encode i).1 = cmd
    ∧ (encode i).2 = (match i with | .wreg _ _ | .padq _ | .wcq _ => dat | _ => 0#32)

/-- R79: a command other than WREG, PADQ and WCQ decodes to the same thing whatever `dat` is. -/
def Obligations.UnusedOperandIgnored : Prop :=
  ∀ cmd dat dat' : Word,
    cmd.extractLsb' 28 4 ≠ 0x2#4 → cmd.extractLsb' 28 4 ≠ 0x5#4 → cmd.extractLsb' 28 4 ≠ 0x6#4 →
    decode cmd dat = decode cmd dat'

/-- Words written out from R74 and R80, one or more of each format, decode to the commands they stand for. -/
def Obligations.WrittenOutWordsDecode : Prop :=
  decode 0x20020000#32 0x00000000#32 = .ok (.wreg 0x02#8 0#32)
  ∧ decode 0x30240000#32 0#32 = .ok (.rreg 0x24#8)
  ∧ decode 0x50000000#32 0x0000012C#32 = .ok (.padq 300#32)
  ∧ decode 0x70001234#32 0#32 = .ok (.pcm 0x1234#16)
  ∧ decode 0x9000FFB0#32 0#32 = .ok (.encq 0xFFB0#16)
  ∧ decode 0xA0000011#32 0#32 = .ok (.pushb 0x11#8)
  ∧ decode 0xC1000000#32 0#32 = .ok (.hdr .loop)
  ∧ decode 0xE0000000#32 0#32 = .ok .exportRun
  ∧ decode 0xF0000000#32 0#32 = .illegal .reservedOpcode
  ∧ decode 0x00000001#32 0#32 = .illegal .nonzeroReservedBits
  ∧ decode 0xD3000000#32 0#32 = .illegal .reservedRegion

/-! ### The machine's steps -/

/-- R71: where the port offers a pair that decodes to `i` and the CORE is not busy, the step of a command under good
conduct is exec of `i`, the pair taken from the port; the same holds for the word that withFetchWord places. The queue of
host events and withFetchWord are the model's own (assumption log 1 and 13). -/
def Obligations.StepRunsTheDecodedCommand : Prop :=
  (∀ (s : State) (cmd dat : Word) (rest : List HostEvent) (i : Instr),
    s.port = .command cmd dat ⟨true, true⟩ :: rest → s.busy = false → decode cmd dat = .ok i →
    step s = exec i { s with port := rest, sbRacing := false })
  ∧ ∀ (s : State) (w : Nat) (i : Instr), decodeTableWord 32 w = some i →
    step (s.withFetchWord 32 w) = exec i { s with busy := false, sbRacing := false }

/-- R202 and the last words of R78: an ILLEGAL command answers `(0, 1, 1)`, sets ILL, and changes nothing else, whether its
word does not decode, or it is a WREG of a read-only or undefined register, or an RREG of an undefined one (R41). -/
def Obligations.IllegalCommandOnlySetsIll : Prop :=
  (∀ (s : State) (cmd dat : Word) (rest : List HostEvent) (why : IllegalWord),
    s.port = .command cmd dat ⟨true, true⟩ :: rest → s.busy = false → s.sbRacing = false →
    decode cmd dat = .illegal why →
    step s = .next
      { s with
        port := rest
        sticky := { s.sticky with ill := true }
        rsps := s.rsps ++ [⟨0#32, true, 1#4⟩] })
  ∧ ∀ (s : State) (ra : RegAddr) (dat : Word) (i : Instr),
      (i = .wreg ra dat ∧ (ra = 0x01#8 ∨ 0x08#8 ≤ ra))
        ∨ (i = .rreg ra ∧ (ra ∈ [0x16#8, 0x17#8, 0x1B#8, 0x1F#8] ∨ (0x09#8 ≤ ra ∧ ra ≤ 0x0F#8) ∨ 0x27#8 ≤ ra)) →
      exec i s = .next
        { s with
          sticky := { s.sticky with ill := true }
          rsps := s.rsps ++ [⟨0#32, true, 1#4⟩] }

/-- R213, R228, and the model's convention of log 1 and log 11: with no event the CORE waits, and while BUSY is 1 a
command stays on the port. -/
def Obligations.IdleAndBusyWait : Prop :=
  (∀ s : State, s.port = [] → step s = .next s)
  ∧ ∀ (s : State) (cmd dat : Word) (c : Conduct) (rest : List HostEvent),
      s.port = .command cmd dat c :: rest → s.busy = true → step s = .next s

/-- R42, R220: the reset event gives every register its reset value, whether the CORE is busy or not, and leaves OUT;
R221: the sample buffer stays. That STATUS and every HDR_r read 0 afterwards R42 marks as derived from R24, R33 and its
table. That `params`, `port`, `rsps` and `freeCount` stay, and `sbRacing` is false, is the MODEL's choice (assumption log
9; the fields: log 1, 6, 7, 8, 10). -/
def Obligations.ResetEventRestoresEverything : Prop :=
  ∀ (s : State) (rest : List HostEvent), s.port = .reset :: rest →
    let zero : RegionRegs := ⟨0#32, 0#32, 0#32, 0#32, 0#32⟩
    let t : State :=
      { control := ⟨.pcm, false⟩
        metadata := ⟨0#32, 0#32, 0#32, 0#32, 0#32, 0#32⟩
        seg := ⟨false, false, .pcm, false, false, false, false, false, zero, zero, zero, 0#32⟩
        stream := ⟨0#32, 0#2, 0#3, s.stream.out⟩
        sticky := ⟨false, false, false⟩
        busy := false
        sb := s.sb, params := s.params, port := rest, rsps := s.rsps, sbRacing := false, freeCount := s.freeCount }
    step s = .next t
    ∧ ∀ ra ∈ [0x01#8, 0x24#8, 0x25#8, 0x26#8],
        exec (.rreg ra) t = .next { t with rsps := t.rsps ++ [⟨0#32, false, 0#4⟩] }

/-- R51, R64: after a host write the written byte reads back, and every other byte reads as before. The host's write as an
event and the form of the buffer are the model's own (assumption log 1 and 3). -/
def Obligations.HostWriteReadsBack : Prop :=
  ∀ (s : State) (a : Word) (b : Byte) (rest : List HostEvent), s.port = .writeSample a b :: rest → s.sb.wf = true →
    ∃ t, step s = .next t ∧ t = { s with port := rest, sb := t.sb }
      ∧ t.sb.read a.toNat = b ∧ (∀ k, k ≠ a.toNat → t.sb.read k = s.sb.read k) ∧ t.sb.wf = true

/-- R221, R229: a command that does not complete delivers the first few of the records it would have emitted, sends no
response and leaves the CORE busy; how many records is a free value, so the claim is of every number. The registers meanwhile are
the model's choice (assumption log 5). A reset then recovers the CORE, and the delivered records stay. -/
def Obligations.AbandonedCommandDeliversAPrefix : Prop :=
  ∀ (s u : State) (cmd dat : Word) (stable : Bool) (rest : List HostEvent),
    s.port = .command cmd dat ⟨stable, false⟩ :: .reset :: rest → s.busy = false →
    runCommand cmd dat { s with port := .reset :: rest, sbRacing := !stable } = .next u →
    ∃ recs, recs <+: u.stream.out.drop s.stream.out.length
      ∧ (∃ t, step s = .next t ∧ t.busy = true ∧ t.rsps = s.rsps ∧ t.stream.out = s.stream.out ++ recs)
      ∧ runSteps 2 s = .next
          { State.reset with
            stream := { State.reset.stream with out := s.stream.out ++ recs }
            sb := s.sb, params := s.params, port := rest, rsps := s.rsps, freeCount := s.freeCount + 1 }

/-! ### Whole-machine rules -/

/-- The reset state meets the invariant. Its empty OUT, buffer and event list and its parameter are the model's choice
(assumption log 3, 8, 9). -/
def Obligations.ResetStateMeetsInv : Prop := State.reset.Inv

/-- Every step keeps the invariant: the canonical form of the sample buffer, the zero bits of ACC (R34), results that are
never stale (R224), counts below 2^24 with their pads and word counts (R30 to R32, R120), legal records (R38, R156) and
legal responses (R200, R201). -/
def Obligations.StepKeepsInv : Prop :=
  ∀ s t : State, s.Inv → step s = .next t → t.Inv

/-- R38: no step removes or changes a record already emitted. -/
def Obligations.OutputOnlyGrows : Prop :=
  ∀ s t : State, step s = .next t → s.stream.out <+: t.stream.out

/-- R71, R200, R201: every command of the table completes with exactly one response, of a code that is not reserved; an
error has a code, and a code without an error is a LOOPLEN or ENDLOOP warning. -/
def Obligations.EveryCommandAnswersOnce : Prop :=
  ∀ (i : Instr) (s : State), ∃ t r, exec i s = .next t ∧ t.rsps = s.rsps ++ [r]
    ∧ r.code.toNat < 8 ∧ (r.err = true → r.code ≠ 0#4)
    ∧ (r.err = false → r.code = 0#4 ∨ r.code = 6#4 ∨ r.code = 7#4)

/-- R206: a command other than SEG and EXPORT that answers an error has changed nothing but its sticky bit. -/
def Obligations.FailingCommandChangesNothingElse : Prop :=
  ∀ (i : Instr) (s t : State) (r : Response), exec i s = .next t → t.rsps = s.rsps ++ [r] → r.err = true →
    i ≠ .seg → i ≠ .exportRun →
    (r = ⟨0#32, true, 1#4⟩ ∧ t = { s with sticky := { s.sticky with ill := true }, rsps := t.rsps })
    ∨ (r = ⟨0#32, true, 2#4⟩ ∧ t = { s with sticky := { s.sticky with nrdy := true }, rsps := t.rsps })

/-- R37: what sets and what clears ILL, NRDY and DONE, for every command. -/
def Obligations.StickyBitsSetAndCleared : Prop :=
  ∀ (i : Instr) (s t : State) (r : Response), exec i s = .next t → t.rsps = s.rsps ++ [r] →
    (t.sticky.ill = match i with
      | .clr | .exportRun => false
      | _ => s.sticky.ill || decide (r.code = 1#4))
    ∧ (t.sticky.nrdy = match i with
      | .clr | .exportRun => false
      | _ => s.sticky.nrdy || decide (r.code = 2#4))
    ∧ (t.sticky.done = match i with
      | .clr | .seg => false
      | .exportRun => t.seg.ok
      | _ => s.sticky.done)

/-- R50, R52: no command writes a byte of the sample buffer, changes a parameter, or touches the ports' queue. -/
def Obligations.CommandsNeverWriteTheBuffer : Prop :=
  ∀ (i : Instr) (s t : State), exec i s = .next t →
    (∀ a : Nat, t.sb.read a = s.sb.read a) ∧ t.sb = s.sb ∧ t.params = s.params ∧ t.port = s.port ∧ t.busy = s.busy
    ∧ t.sbRacing = s.sbRacing ∧ t.freeCount = s.freeCount

/-- R27 to R36, R102, R117, R133 to R172 (their Writes lines): which commands write which group of registers. Only WREG
writes CTRL and the metadata; only SEG and EXPORT write the segmenter results, of which WREG clears SEGV and OK; only the
packer and region commands, CLR and EXPORT change the packer or OUT. -/
def Obligations.RegisterGroupsWrittenOnlyBy : Prop :=
  ∀ (i : Instr) (s t : State), exec i s = .next t →
    ((∀ ra dat, i ≠ .wreg ra dat) → t.control = s.control ∧ t.metadata = s.metadata)
    ∧ (i ≠ .seg → i ≠ .exportRun →
        t.seg = { s.seg with segv := t.seg.segv, ok := t.seg.ok }
        ∧ ((∀ ra dat, i ≠ .wreg ra dat) → t.seg.segv = s.seg.segv ∧ t.seg.ok = s.seg.ok))
    ∧ ((match i with
        | .nop | .wreg _ _ | .rreg _ | .seg | .padq _ | .wcq _ | .encq _ => True
        | _ => False) → t.stream = s.stream)

/-- R27, R224: the live CTRL.MODE reaches no region command: PAD, HDR and REGION do the same under any CTRL. -/
def Obligations.LiveModeReachesNoRegionCommand : Prop :=
  ∀ (s : State) (c : Control) (r : Region) (i : Instr), i ∈ [.pad r, .hdr r, .region r] →
    ∃ t, exec i s = .next t ∧ exec i { s with control := c } = .next { t with control := c }

/-- R54: in a state of the invariant, REGION reads no byte outside `RB_r .. RE_r - 1`: any other buffer that agrees there
gives the same records, packer and response. The invariant is the model's, a premise that keeps the range from wrapping
(assumption log 14). -/
def Obligations.RegionReadsOnlyItsRange : Prop :=
  ∀ (s : State) (m : Memory) (r : Region), s.Inv → s.seg.segv = true → s.seg.ok = true →
    (∀ a, (s.seg.region r).rb.toNat ≤ a → a < (s.seg.region r).re.toNat → m.read a = s.sb.read a) →
    ∃ t, exec (.region r) s = .next t ∧ exec (.region r) { s with sb := m } = .next { t with sb := m }

/-- What R227 marks as derived from R170: whatever the sample bytes are, stable or racing with the host, a command emits
as many records, the same headers, line ends and region indices, and leaves everything else the same but the words of
DATA records and ACC. The race flag and the free-value counter, through which a race is stated, are the MODEL's
(assumption log 6 and 7). -/
def Obligations.SampleBytesReachOnlyDataWords : Prop :=
  ∀ (i : Instr) (s : State) (m : Memory) (racing : Bool) (k : Nat),
    ∃ t u, exec i s = .next t ∧ exec i { s with sb := m, sbRacing := racing, freeCount := k } = .next u
      ∧ u.stream.out.map OutRecord.shape = t.stream.out.map OutRecord.shape
      ∧ u.stream.bcnt = t.stream.bcnt ∧ u.stream.lcnt = t.stream.lcnt
      ∧ u = { t with stream := u.stream, sb := m, sbRacing := racing, freeCount := k }

/-- R229: in a state of the invariant, a command other than REGION and EXPORT emits at most 32 records if it is a PAD, and
at most 1 if not. -/
def Obligations.RecordsPerCommandBounded : Prop :=
  ∀ (i : Instr) (s t : State), s.Inv → exec i s = .next t → (∀ r, i ≠ .region r) → i ≠ .exportRun →
    t.stream.out.length ≤ s.stream.out.length + (match i with | .pad _ => 32 | _ => 1)
end

