-- ==== Sys2Proof/Laws/Decode.lean ====
section
/-! SUPPORT. The fields of an encoded word, format by format: the opcode, the must-be-zero bits and the operand field come
back from a word put together from them. -/

namespace Sys2Proof

theorem opField_N (op : BitVec 4) : opField (opBase op ||| 0#32) = op := by
  revert op; decide

theorem mask_N (op : BitVec 4) : (opBase op ||| 0#32) &&& maskOf .N = opBase op := by
  revert op; decide

theorem opField_G (op : BitVec 4) (ra : RegAddr) : opField (opBase op ||| ra.setWidth 32 <<< 16) = op := by
  unfold opField opBase
  ext i hi
  simp only [BitVec.getElem_extractLsb', BitVec.getLsbD_or, BitVec.getLsbD_shiftLeft, BitVec.getLsbD_setWidth]
  interval_cases i <;> simp [BitVec.getLsbD_of_ge]

theorem mask_G (op : BitVec 4) (ra : RegAddr) :
    (opBase op ||| ra.setWidth 32 <<< 16) &&& maskOf .G = opBase op := by
  unfold opBase maskOf
  ext i hi
  simp only [BitVec.getElem_and, BitVec.getElem_or, BitVec.getElem_shiftLeft, BitVec.getElem_setWidth]
  interval_cases i <;> simp [BitVec.getLsbD_of_ge]

theorem raField_G (op : BitVec 4) (ra : RegAddr) : raField (opBase op ||| ra.setWidth 32 <<< 16) = ra := by
  unfold raField opBase
  ext i hi
  simp only [BitVec.getElem_extractLsb', BitVec.getLsbD_or, BitVec.getLsbD_shiftLeft, BitVec.getLsbD_setWidth]
  interval_cases i <;> simp [BitVec.getLsbD_eq_getElem]

theorem opField_S (op : BitVec 4) (x : Half) : opField (opBase op ||| x.setWidth 32) = op := by
  unfold opField opBase
  ext i hi
  simp only [BitVec.getElem_extractLsb', BitVec.getLsbD_or, BitVec.getLsbD_shiftLeft, BitVec.getLsbD_setWidth]
  interval_cases i <;> simp [BitVec.getLsbD_of_ge]

theorem mask_S (op : BitVec 4) (x : Half) : (opBase op ||| x.setWidth 32) &&& maskOf .S = opBase op := by
  unfold opBase maskOf
  ext i hi
  simp only [BitVec.getElem_and, BitVec.getElem_or, BitVec.getElem_shiftLeft, BitVec.getElem_setWidth]
  interval_cases i <;> simp [BitVec.getLsbD_of_ge]

theorem imm16Field_S (op : BitVec 4) (x : Half) : imm16Field (opBase op ||| x.setWidth 32) = x := by
  unfold imm16Field opBase
  ext i hi
  simp only [BitVec.getElem_extractLsb', BitVec.getLsbD_or, BitVec.getLsbD_shiftLeft, BitVec.getLsbD_setWidth]
  interval_cases i <;> simp [BitVec.getLsbD_eq_getElem]

theorem opField_B (op : BitVec 4) (b : Byte) : opField (opBase op ||| b.setWidth 32) = op := by
  unfold opField opBase
  ext i hi
  simp only [BitVec.getElem_extractLsb', BitVec.getLsbD_or, BitVec.getLsbD_shiftLeft, BitVec.getLsbD_setWidth]
  interval_cases i <;> simp [BitVec.getLsbD_of_ge]

theorem mask_B (op : BitVec 4) (b : Byte) : (opBase op ||| b.setWidth 32) &&& maskOf .B = opBase op := by
  unfold opBase maskOf
  ext i hi
  simp only [BitVec.getElem_and, BitVec.getElem_or, BitVec.getElem_shiftLeft, BitVec.getElem_setWidth]
  interval_cases i <;> simp [BitVec.getLsbD_of_ge]

theorem imm8Field_B (op : BitVec 4) (b : Byte) : imm8Field (opBase op ||| b.setWidth 32) = b := by
  unfold imm8Field opBase
  ext i hi
  simp only [BitVec.getElem_extractLsb', BitVec.getLsbD_or, BitVec.getLsbD_shiftLeft, BitVec.getLsbD_setWidth]
  interval_cases i <;> simp [BitVec.getLsbD_eq_getElem]

theorem opField_R (op : BitVec 4) (r : Region) : opField (opBase op ||| r.bits.setWidth 32 <<< 24) = op := by
  revert op; cases r <;> decide

theorem mask_R (op : BitVec 4) (r : Region) :
    (opBase op ||| r.bits.setWidth 32 <<< 24) &&& maskOf .R = opBase op := by
  revert op; cases r <;> decide

theorem rgField_R (op : BitVec 4) (r : Region) :
    Region.ofBits (rgField (opBase op ||| r.bits.setWidth 32 <<< 24)) = some r := by
  revert op; cases r <;> decide

/-- A region's index names that region. -/
theorem ofBits_bits (r : Region) : Region.ofBits r.bits = some r := by
  cases r <;> rfl

/-- The decoder answers a command exactly for a word whose opcode has a format, whose must-be-zero bits are zero, and whose
RG names a region where it has one. -/
theorem decode_eq_ok_iff (cmd dat : Word) (i : Instr) :
    decode cmd dat = .ok i ↔ ∃ fmt, formatOf (opField cmd) = some fmt
      ∧ cmd &&& maskOf fmt = opBase (opField cmd) ∧ instrOf cmd dat = some i := by
  unfold decode
  cases hf : formatOf (opField cmd) with
  | none => simp
  | some fmt =>
    by_cases hm : cmd &&& maskOf fmt = opBase (opField cmd)
    · cases hi : instrOf cmd dat <;> simp [hm]
    · simp [hm]

/-- A word of an opcode that has a format decodes, by its must-be-zero bits, to its row's command or to ILLEGAL. -/
theorem decode_by_mask (op : BitVec 4) (fmt : Format) (hf : formatOf op = some fmt) (cmd dat : Word) (i : Instr)
    (h : opField cmd = op) (hi : instrOf cmd dat = some i) :
    (cmd &&& maskOf fmt = opBase op → decode cmd dat = .ok i)
    ∧ (cmd &&& maskOf fmt ≠ opBase op → ∃ why, decode cmd dat = .illegal why) := by
  subst h
  refine ⟨fun hm => (decode_eq_ok_iff cmd dat i).mpr ⟨fmt, hf, hm, hi⟩, fun hm => ?_⟩
  unfold decode
  rw [hf]
  simp only [if_neg hm]
  exact ⟨_, rfl⟩

/-- An N-format opcode has one command word; every other word of it is ILLEGAL. -/
theorem decode_N_illegal (op : BitVec 4) (hf : formatOf op = some .N) (cmd dat : Word) (h : opField cmd = op)
    (hne : cmd ≠ opBase op) : ∃ why, decode cmd dat = .illegal why := by
  unfold decode
  rw [h, hf]
  have hm : cmd &&& maskOf .N = cmd := BitVec.and_allOnes
  simp only [hm, if_neg hne]
  exact ⟨_, rfl⟩

/-- A word that matches a row has the row's opcode. -/
theorem opField_of_mask (cmd : Word) (fmt : Format) (op : BitVec 4) (h : cmd &&& maskOf fmt = opBase op) :
    opField cmd = op := by
  have hm : ∀ i, i < 4 → (maskOf fmt).getLsbD (28 + i) = true := by
    intro i hi
    cases fmt <;> interval_cases i <;> rfl
  have hb : opField (opBase op) = op := by
    clear h
    revert op
    decide
  rw [← hb, ← h]
  unfold opField
  apply BitVec.eq_of_getLsbD_eq
  intro i hi
  rw [BitVec.getLsbD_extractLsb', BitVec.getLsbD_extractLsb', BitVec.getLsbD_and, hm i hi, Bool.and_true]

/-- A word that matches a row is the row's opcode and the word's own field bits. -/
theorem word_of_mask (cmd : Word) (fmt : Format) (op : BitVec 4) (h : cmd &&& maskOf fmt = opBase op) :
    cmd = opBase op ||| (cmd &&& ~~~maskOf fmt) := by
  rw [← h]
  apply BitVec.eq_of_getLsbD_eq
  intro i hi
  simp only [BitVec.getLsbD_or, BitVec.getLsbD_and, BitVec.getLsbD_not, hi, decide_true, Bool.true_and]
  cases cmd.getLsbD i <;> cases (maskOf fmt).getLsbD i <;> rfl

/-- A word is a command or ILLEGAL, not both. -/
theorem decode_ok_or_illegal (cmd dat : Word) :
    (∃ i, decode cmd dat = .ok i) ∨ ∃ why, decode cmd dat = .illegal why := by
  cases h : decode cmd dat with
  | ok i => exact .inl ⟨i, rfl⟩
  | illegal why => exact .inr ⟨why, rfl⟩

end Sys2Proof
end

