-- ==== Sys2Proof/Laws/Encoder.lean ====
section
/-! SUPPORT. The µ-law rule in numbers: the tier of a magnitude, and the code of a sample as a sum of its three fields. -/

namespace Sys2Proof.Machine

theorem natAbs_toInt_le (x : Half) : x.toInt.natAbs ≤ 32768 := by
  have h1 := BitVec.toInt_lt (x := x)
  have h2 := BitVec.le_toInt (x := x)
  omega

/-- One row of the tier search. -/
theorem tier_search_cons (mag : Nat) (t : Tier) (ts : List Tier) :
    ((t :: ts).find? (fun t => decide (t.threshold ≤ mag))).getD tierZero
      = if t.threshold ≤ mag then t else (ts.find? (fun t => decide (t.threshold ≤ mag))).getD tierZero := by
  rw [List.find?_cons]
  by_cases h : t.threshold ≤ mag <;> simp [h]

/-- The tier search, written as a chain of comparisons. -/
theorem tierOf_eq (mag : Nat) : tierOf mag =
    if 0x4000 ≤ mag then ⟨0x4000, 0x70#8, 10⟩ else if 0x2000 ≤ mag then ⟨0x2000, 0x60#8, 9⟩
    else if 0x1000 ≤ mag then ⟨0x1000, 0x50#8, 8⟩ else if 0x0800 ≤ mag then ⟨0x0800, 0x40#8, 7⟩
    else if 0x0400 ≤ mag then ⟨0x0400, 0x30#8, 6⟩ else if 0x0200 ≤ mag then ⟨0x0200, 0x20#8, 5⟩
    else if 0x0100 ≤ mag then ⟨0x0100, 0x10#8, 4⟩ else tierZero := by
  have h : tierOf mag = (tierTable.find? (fun t => decide (t.threshold ≤ mag))).getD tierZero := by
    unfold tierOf
    cases tierTable.find? (fun t => decide (t.threshold ≤ mag)) <;> rfl
  rw [h, tierTable]
  simp only [tier_search_cons, List.find?_nil, Option.getD_none, ite_self]

/-- The number of a magnitude's tier, 7 for the topmost row. -/
def tierNo (mag : Nat) : Nat :=
  if 0x4000 ≤ mag then 7 else if 0x2000 ≤ mag then 6 else if 0x1000 ≤ mag then 5 else if 0x0800 ≤ mag then 4
  else if 0x0400 ≤ mag then 3 else if 0x0200 ≤ mag then 2 else if 0x0100 ≤ mag then 1 else 0

/-- A tier's code and shift follow from its number. -/
theorem tierOf_code_shift (mag : Nat) :
    (tierOf mag).code = BitVec.ofNat 8 (tierNo mag * 16) ∧ (tierOf mag).shift = tierNo mag + 3 := by
  rw [tierOf_eq]
  unfold tierNo
  split_ifs <;> exact ⟨rfl, rfl⟩

theorem tierNo_lt (mag : Nat) : tierNo mag < 8 := by
  unfold tierNo
  split_ifs <;> decide

theorem tierNo_mono (a b : Nat) (h : a ≤ b) : tierNo a ≤ tierNo b := by
  unfold tierNo
  split_ifs <;> omega

/-- The magnitudes of tier `k` are those from `2 ^ (k + 7)` up to `2 ^ (k + 8)`. -/
theorem tierNo_range (mag : Nat) (h : 128 ≤ mag) (h' : mag < 32768) :
    2 ^ (tierNo mag + 7) ≤ mag ∧ mag < 2 ^ (tierNo mag + 8) := by
  unfold tierNo
  split_ifs <;> constructor <;> simp <;> omega

/-- Bits 6:0 of a code, from the absolute value of the sample. -/
def codeNumber (a : Nat) : Nat :=
  let mag := min (a + 128) 0x7FFF
  tierNo mag * 16 + mag / 2 ^ (tierNo mag + 3) % 16

theorem codeNumber_lt (a : Nat) : codeNumber a < 128 := by
  have := tierNo_lt (min (a + 128) 0x7FFF)
  simp only [codeNumber]
  omega

/-- Sign, tier and mantissa do not overlap. -/
theorem code_fields_toNat : ∀ (s : Bool) (k : Fin 8) (m : Fin 16),
    ((if s then 0x80#8 else 0x00#8) ||| BitVec.ofNat 8 (k.1 * 16) ||| BitVec.ofNat 8 m.1).toNat
      = (if s then 128 else 0) + (k.1 * 16 + m.1) := by
  decide

/-- The code of a sample as a number. -/
theorem mulawByte_toNat (x : Half) :
    (mulawByte x).toNat = (if x.toInt < 0 then 128 else 0) + codeNumber x.toInt.natAbs := by
  have e : ∀ n : Nat, n &&& 0x0F = n % 16 := fun n => Nat.and_two_pow_sub_one_eq_mod n 4
  have ht := tierOf_code_shift (min (x.toInt.natAbs + 128) 0x7FFF)
  have h := code_fields_toNat (decide (x.toInt < 0)) ⟨tierNo (min (x.toInt.natAbs + 128) 0x7FFF), tierNo_lt _⟩
    ⟨min (x.toInt.natAbs + 128) 0x7FFF / 2 ^ (tierNo (min (x.toInt.natAbs + 128) 0x7FFF) + 3) % 16,
      Nat.mod_lt _ (by decide)⟩
  simp only [decide_eq_true_eq] at h
  unfold mulawByte mulawSign mulawMag mulawBias mulawClip codeNumber
  simp only [ht.1, ht.2, e, Nat.shiftRight_eq_div_pow]
  exact h

end Sys2Proof.Machine
end

