-- ==== Sys2Proof/Laws/Memory.lean ====
section
/-! SUPPORT. The laws of the sample buffer: a write is read back, every other address reads as before, and the canonical
form is kept, so that equal buffers are equal lists. -/

namespace Sys2Proof.Machine

/-- Cells from `lo` on list nothing below it. -/
theorem read_below (m : Memory) (lo a : Nat) (h : Memory.wfFrom lo m = true) (ha : a < lo) :
    Memory.read m a = Memory.unlisted := by
  induction m generalizing lo with
  | nil => rfl
  | cons c rest ih =>
    obtain ⟨k, b⟩ := c
    simp only [Memory.wfFrom, Bool.and_eq_true, decide_eq_true_eq] at h
    have hk : k ≠ a := by omega
    simpa [Memory.read, hk] using ih (k + 1) h.2 (by omega)

/-- Putting a cell in front of cells that do not list its address reads back as it says. -/
theorem read_consCell (m : Memory) (a k : Nat) (v : Byte) (h : Memory.read m a = Memory.unlisted) :
    Memory.read (Memory.consCell a v m) k = if k = a then v else Memory.read m k := by
  unfold Memory.consCell
  split
  · rename_i hv
    split
    · rename_i hk; rw [hk, h, hv]
    · rfl
  · simp only [Memory.read, eq_comm]

/-- What a write changes: the byte written, and nothing else. -/
theorem read_write (m : Memory) (lo a k : Nat) (v : Byte) (h : Memory.wfFrom lo m = true) :
    Memory.read (Memory.write m a v) k = if k = a then v else Memory.read m k := by
  induction m generalizing lo with
  | nil => exact read_consCell [] a k v rfl
  | cons c rest ih =>
    obtain ⟨j, b⟩ := c
    simp only [Memory.wfFrom, Bool.and_eq_true, decide_eq_true_eq] at h
    unfold Memory.write
    split
    · rename_i haj
      apply read_consCell
      have hj : j ≠ a := by omega
      simpa [Memory.read, hj] using read_below rest (j + 1) a h.2 (by omega)
    · split
      · rename_i haj
        rw [read_consCell rest a k v (read_below rest (j + 1) a h.2 (by omega))]
        by_cases hk : k = a
        · simp [hk]
        · have hj : j ≠ k := by omega
          simp [Memory.read, hk, hj]
      · rename_i hne
        simp only [Memory.read]
        split
        · rename_i hjk
          have hk : k ≠ a := by omega
          simp [hk]
        · exact ih (j + 1) h.2

/-- A cell in front of well-formed cells at later addresses. -/
theorem wfFrom_consCell (m : Memory) (lo a : Nat) (v : Byte) (hlo : lo ≤ a) (ha : a < 2 ^ 32)
    (h : Memory.wfFrom (a + 1) m = true) (hm : Memory.wfFrom lo m = true) :
    Memory.wfFrom lo (Memory.consCell a v m) = true := by
  unfold Memory.consCell
  split
  · exact hm
  · rename_i hv
    simp only [Memory.wfFrom, Bool.and_eq_true, decide_eq_true_eq, bne_iff_ne]
    exact ⟨⟨⟨hlo, ha⟩, hv⟩, h⟩

/-- A lower bound may be lowered. -/
theorem wfFrom_mono (m : Memory) (lo lo' : Nat) (hl : lo' ≤ lo) (h : Memory.wfFrom lo m = true) :
    Memory.wfFrom lo' m = true := by
  cases m with
  | nil => rfl
  | cons c rest =>
    obtain ⟨k, b⟩ := c
    simp only [Memory.wfFrom, Bool.and_eq_true, decide_eq_true_eq] at h ⊢
    exact ⟨⟨⟨by omega, h.1.1.2⟩, h.1.2⟩, h.2⟩

/-- A write at an address not below the bound keeps the canonical form from that bound. -/
theorem wfFrom_write (m : Memory) (lo a : Nat) (v : Byte) (hlo : lo ≤ a) (ha : a < 2 ^ 32)
    (h : Memory.wfFrom lo m = true) : Memory.wfFrom lo (Memory.write m a v) = true := by
  induction m generalizing lo with
  | nil => exact wfFrom_consCell [] lo a v hlo ha rfl rfl
  | cons c rest ih =>
    obtain ⟨j, b⟩ := c
    have hw := h
    simp only [Memory.wfFrom, Bool.and_eq_true, decide_eq_true_eq] at h
    unfold Memory.write
    split
    · refine wfFrom_consCell _ lo a v hlo ha ?_ hw
      simp only [Memory.wfFrom, Bool.and_eq_true, decide_eq_true_eq]
      exact ⟨⟨⟨by omega, h.1.1.2⟩, h.1.2⟩, h.2⟩
    · split
      · rename_i haj
        subst haj
        exact wfFrom_consCell rest lo a v hlo ha h.2 (wfFrom_mono rest (a + 1) lo (by omega) h.2)
      · simp only [Memory.wfFrom, Bool.and_eq_true, decide_eq_true_eq]
        exact ⟨h.1, ih (j + 1) (by omega) h.2⟩

/-- A write within the address space keeps the canonical form. -/
theorem wf_write (m : Memory) (a : Nat) (v : Byte) (ha : a < 2 ^ 32) (h : m.wf = true) : (m.write a v).wf = true :=
  wfFrom_write m 0 a v (Nat.zero_le a) ha h

/-- Two buffers in canonical form that read the same everywhere are the same data. -/
theorem wfFrom_ext (m m' : Memory) (lo : Nat) (h : Memory.wfFrom lo m = true) (h' : Memory.wfFrom lo m' = true)
    (hr : ∀ a, Memory.read m a = Memory.read m' a) : m = m' := by
  induction m generalizing lo m' with
  | nil =>
    cases m' with
    | nil => rfl
    | cons c rest =>
      obtain ⟨k, b⟩ := c
      simp only [Memory.wfFrom, Bool.and_eq_true, decide_eq_true_eq, bne_iff_ne] at h'
      have := hr k
      simp only [Memory.read, if_true] at this
      exact absurd this.symm h'.1.2
  | cons c rest ih =>
    obtain ⟨k, b⟩ := c
    have hw := h
    simp only [Memory.wfFrom, Bool.and_eq_true, decide_eq_true_eq, bne_iff_ne] at h
    cases m' with
    | nil =>
      have := hr k
      simp only [Memory.read, if_true] at this
      exact absurd this h.1.2
    | cons c' rest' =>
      obtain ⟨k', b'⟩ := c'
      simp only [Memory.wfFrom, Bool.and_eq_true, decide_eq_true_eq, bne_iff_ne] at h'
      have hk : k = k' := by
        rcases Nat.lt_trichotomy k k' with hlt | heq | hgt
        · have := hr k
          have hne : k' ≠ k := by omega
          rw [Memory.read, if_pos rfl, Memory.read, if_neg hne, read_below rest' (k' + 1) k h'.2 (by omega)] at this
          exact absurd this h.1.2
        · exact heq
        · have := hr k'
          have hne : k ≠ k' := by omega
          rw [Memory.read, if_neg hne, Memory.read, if_pos rfl, read_below rest (k + 1) k' h.2 (by omega)] at this
          exact absurd this.symm h'.1.2
      subst hk
      have hb : b = b' := by
        have := hr k
        simpa only [Memory.read, if_true] using this
      subst hb
      have hrest : rest = rest' := by
        refine ih rest' (k + 1) h.2 h'.2 ?_
        intro a
        by_cases ha : k = a
        · subst ha
          rw [read_below rest (k + 1) k h.2 (by omega), read_below rest' (k + 1) k h'.2 (by omega)]
        · have := hr a
          simpa only [Memory.read, if_neg ha] using this
      rw [hrest]

end Sys2Proof.Machine
end

