-- ==== Sys2Proof/Laws/State.lean ====
section
/-! SUPPORT. One lemma per field of the state and per update of it that the operations make, so that no proof unfolds a
record update. -/

namespace Sys2Proof.Machine

/-! ### The output port -/

@[simp] theorem signals_outKind (r : OutRecord) : r.signals.outKind = r.kind.bits := rfl
@[simp] theorem signals_outRg (r : OutRecord) : r.signals.outRg = r.rg := rfl
@[simp] theorem signals_outWord (r : OutRecord) : r.signals.outWord = r.word := rfl
@[simp] theorem signals_outEol (r : OutRecord) : r.signals.outEol = r.eol := rfl

theorem recordKind_bits_inj (k l : RecordKind) (h : k.bits = l.bits) : k = l := by
  revert h; cases k <;> cases l <;> decide

/-- The output port shows all of a record (R38, R70). -/
theorem signals_inj (r q : OutRecord) (h : r.signals = q.signals) : r = q := by
  obtain ⟨_, _, _, _⟩ := r
  obtain ⟨_, _, _, _⟩ := q
  simp only [OutRecord.signals, OutSignals.mk.injEq] at h
  obtain ⟨hk, rfl, rfl, rfl⟩ := h
  rw [recordKind_bits_inj _ _ hk]

/-- What a command appends to OUT, the output port transfers after what it transferred before. -/
theorem outTransfers_append (s t : State) (rs : List OutRecord) (h : t.stream.out = s.stream.out ++ rs) :
    outTransfers t = outTransfers s ++ rs.map OutRecord.signals := by
  simp only [outTransfers, h, List.map_append]

/-! ### respond -/

@[simp] theorem respond_control (d : Word) (e : Bool) (c : Code) (s : State) : (respond d e c s).control = s.control := rfl
@[simp] theorem respond_metadata (d : Word) (e : Bool) (c : Code) (s : State) : (respond d e c s).metadata = s.metadata := rfl
@[simp] theorem respond_seg (d : Word) (e : Bool) (c : Code) (s : State) : (respond d e c s).seg = s.seg := rfl
@[simp] theorem respond_stream (d : Word) (e : Bool) (c : Code) (s : State) : (respond d e c s).stream = s.stream := rfl
@[simp] theorem respond_sticky (d : Word) (e : Bool) (c : Code) (s : State) : (respond d e c s).sticky = s.sticky := rfl
@[simp] theorem respond_busy (d : Word) (e : Bool) (c : Code) (s : State) : (respond d e c s).busy = s.busy := rfl
@[simp] theorem respond_sb (d : Word) (e : Bool) (c : Code) (s : State) : (respond d e c s).sb = s.sb := rfl
@[simp] theorem respond_params (d : Word) (e : Bool) (c : Code) (s : State) : (respond d e c s).params = s.params := rfl
@[simp] theorem respond_port (d : Word) (e : Bool) (c : Code) (s : State) : (respond d e c s).port = s.port := rfl
@[simp] theorem respond_rsps (d : Word) (e : Bool) (c : Code) (s : State) : (respond d e c s).rsps = s.rsps ++ [⟨d, e, c.bits⟩] := rfl
@[simp] theorem respond_sbRacing (d : Word) (e : Bool) (c : Code) (s : State) : (respond d e c s).sbRacing = s.sbRacing := rfl
@[simp] theorem respond_freeCount (d : Word) (e : Bool) (c : Code) (s : State) : (respond d e c s).freeCount = s.freeCount := rfl

/-! ### complete -/

@[simp] theorem complete_control (d : Word) (s : State) : (complete d s).control = s.control := rfl
@[simp] theorem complete_metadata (d : Word) (s : State) : (complete d s).metadata = s.metadata := rfl
@[simp] theorem complete_seg (d : Word) (s : State) : (complete d s).seg = s.seg := rfl
@[simp] theorem complete_stream (d : Word) (s : State) : (complete d s).stream = s.stream := rfl
@[simp] theorem complete_sticky (d : Word) (s : State) : (complete d s).sticky = s.sticky := rfl
@[simp] theorem complete_busy (d : Word) (s : State) : (complete d s).busy = s.busy := rfl
@[simp] theorem complete_sb (d : Word) (s : State) : (complete d s).sb = s.sb := rfl
@[simp] theorem complete_params (d : Word) (s : State) : (complete d s).params = s.params := rfl
@[simp] theorem complete_port (d : Word) (s : State) : (complete d s).port = s.port := rfl
@[simp] theorem complete_rsps (d : Word) (s : State) : (complete d s).rsps = s.rsps ++ [⟨d, false, 0#4⟩] := rfl
@[simp] theorem complete_sbRacing (d : Word) (s : State) : (complete d s).sbRacing = s.sbRacing := rfl
@[simp] theorem complete_freeCount (d : Word) (s : State) : (complete d s).freeCount = s.freeCount := rfl

/-! ### raiseError -/

@[simp] theorem raiseError_control (e : Code) (s : State) : (raiseError e s).control = s.control := rfl
@[simp] theorem raiseError_metadata (e : Code) (s : State) : (raiseError e s).metadata = s.metadata := rfl
@[simp] theorem raiseError_seg (e : Code) (s : State) : (raiseError e s).seg = s.seg := rfl
@[simp] theorem raiseError_stream (e : Code) (s : State) : (raiseError e s).stream = s.stream := rfl
@[simp] theorem raiseError_sticky (e : Code) (s : State) : (raiseError e s).sticky = s.sticky.set e := rfl
@[simp] theorem raiseError_busy (e : Code) (s : State) : (raiseError e s).busy = s.busy := rfl
@[simp] theorem raiseError_sb (e : Code) (s : State) : (raiseError e s).sb = s.sb := rfl
@[simp] theorem raiseError_params (e : Code) (s : State) : (raiseError e s).params = s.params := rfl
@[simp] theorem raiseError_port (e : Code) (s : State) : (raiseError e s).port = s.port := rfl
@[simp] theorem raiseError_rsps (e : Code) (s : State) : (raiseError e s).rsps = s.rsps ++ [⟨0#32, true, e.bits⟩] := rfl
@[simp] theorem raiseError_sbRacing (e : Code) (s : State) : (raiseError e s).sbRacing = s.sbRacing := rfl
@[simp] theorem raiseError_freeCount (e : Code) (s : State) : (raiseError e s).freeCount = s.freeCount := rfl

/-! ### clearEffects -/

@[simp] theorem clearEffects_control (s : State) : (clearEffects s).control = s.control := rfl
@[simp] theorem clearEffects_metadata (s : State) : (clearEffects s).metadata = s.metadata := rfl
@[simp] theorem clearEffects_seg (s : State) : (clearEffects s).seg = s.seg := rfl
@[simp] theorem clearEffects_stream (s : State) : (clearEffects s).stream = s.stream.clear := rfl
@[simp] theorem clearEffects_sticky (s : State) : (clearEffects s).sticky = .clear := rfl
@[simp] theorem clearEffects_busy (s : State) : (clearEffects s).busy = s.busy := rfl
@[simp] theorem clearEffects_sb (s : State) : (clearEffects s).sb = s.sb := rfl
@[simp] theorem clearEffects_params (s : State) : (clearEffects s).params = s.params := rfl
@[simp] theorem clearEffects_port (s : State) : (clearEffects s).port = s.port := rfl
@[simp] theorem clearEffects_rsps (s : State) : (clearEffects s).rsps = s.rsps := rfl
@[simp] theorem clearEffects_sbRacing (s : State) : (clearEffects s).sbRacing = s.sbRacing := rfl
@[simp] theorem clearEffects_freeCount (s : State) : (clearEffects s).freeCount = s.freeCount := rfl

/-! ### invalidateSeg -/

@[simp] theorem invalidateSeg_control (s : State) : (invalidateSeg s).control = s.control := rfl
@[simp] theorem invalidateSeg_metadata (s : State) : (invalidateSeg s).metadata = s.metadata := rfl
@[simp] theorem invalidateSeg_seg (s : State) : (invalidateSeg s).seg = { s.seg with segv := false, ok := false } := rfl
@[simp] theorem invalidateSeg_stream (s : State) : (invalidateSeg s).stream = s.stream := rfl
@[simp] theorem invalidateSeg_sticky (s : State) : (invalidateSeg s).sticky = s.sticky := rfl
@[simp] theorem invalidateSeg_busy (s : State) : (invalidateSeg s).busy = s.busy := rfl
@[simp] theorem invalidateSeg_sb (s : State) : (invalidateSeg s).sb = s.sb := rfl
@[simp] theorem invalidateSeg_params (s : State) : (invalidateSeg s).params = s.params := rfl
@[simp] theorem invalidateSeg_port (s : State) : (invalidateSeg s).port = s.port := rfl
@[simp] theorem invalidateSeg_rsps (s : State) : (invalidateSeg s).rsps = s.rsps := rfl
@[simp] theorem invalidateSeg_sbRacing (s : State) : (invalidateSeg s).sbRacing = s.sbRacing := rfl
@[simp] theorem invalidateSeg_freeCount (s : State) : (invalidateSeg s).freeCount = s.freeCount := rfl

/-! ### segEffects -/

@[simp] theorem segEffects_control (s : State) : (segEffects s).control = s.control := rfl
@[simp] theorem segEffects_metadata (s : State) : (segEffects s).metadata = s.metadata := rfl
@[simp] theorem segEffects_seg (s : State) : (segEffects s).seg = segmentOf s.control s.metadata := rfl
@[simp] theorem segEffects_stream (s : State) : (segEffects s).stream = s.stream := rfl
@[simp] theorem segEffects_sticky (s : State) : (segEffects s).sticky = { s.sticky with done := false } := rfl
@[simp] theorem segEffects_busy (s : State) : (segEffects s).busy = s.busy := rfl
@[simp] theorem segEffects_sb (s : State) : (segEffects s).sb = s.sb := rfl
@[simp] theorem segEffects_params (s : State) : (segEffects s).params = s.params := rfl
@[simp] theorem segEffects_port (s : State) : (segEffects s).port = s.port := rfl
@[simp] theorem segEffects_rsps (s : State) : (segEffects s).rsps = s.rsps := rfl
@[simp] theorem segEffects_sbRacing (s : State) : (segEffects s).sbRacing = s.sbRacing := rfl
@[simp] theorem segEffects_freeCount (s : State) : (segEffects s).freeCount = s.freeCount := rfl

/-! ### respondSeg -/

@[simp] theorem respondSeg_control (s : State) : (respondSeg s).control = s.control := rfl
@[simp] theorem respondSeg_metadata (s : State) : (respondSeg s).metadata = s.metadata := rfl
@[simp] theorem respondSeg_seg (s : State) : (respondSeg s).seg = s.seg := rfl
@[simp] theorem respondSeg_stream (s : State) : (respondSeg s).stream = s.stream := rfl
@[simp] theorem respondSeg_sticky (s : State) : (respondSeg s).sticky = s.sticky := rfl
@[simp] theorem respondSeg_busy (s : State) : (respondSeg s).busy = s.busy := rfl
@[simp] theorem respondSeg_sb (s : State) : (respondSeg s).sb = s.sb := rfl
@[simp] theorem respondSeg_params (s : State) : (respondSeg s).params = s.params := rfl
@[simp] theorem respondSeg_port (s : State) : (respondSeg s).port = s.port := rfl
@[simp] theorem respondSeg_rsps (s : State) : (respondSeg s).rsps = s.rsps ++ [⟨s.seg.wcTot, !s.seg.ok, (validationCode s.seg).bits⟩] := rfl
@[simp] theorem respondSeg_sbRacing (s : State) : (respondSeg s).sbRacing = s.sbRacing := rfl
@[simp] theorem respondSeg_freeCount (s : State) : (respondSeg s).freeCount = s.freeCount := rfl

/-! ### stall -/

@[simp] theorem stall_control (s t : State) : (stall s t).control = s.control := rfl
@[simp] theorem stall_metadata (s t : State) : (stall s t).metadata = s.metadata := rfl
@[simp] theorem stall_seg (s t : State) : (stall s t).seg = s.seg := rfl
@[simp] theorem stall_sticky (s t : State) : (stall s t).sticky = s.sticky := rfl
@[simp] theorem stall_busy (s t : State) : (stall s t).busy = true := rfl
@[simp] theorem stall_sb (s t : State) : (stall s t).sb = s.sb := rfl
@[simp] theorem stall_params (s t : State) : (stall s t).params = s.params := rfl
@[simp] theorem stall_port (s t : State) : (stall s t).port = s.port := rfl
@[simp] theorem stall_rsps (s t : State) : (stall s t).rsps = s.rsps := rfl
@[simp] theorem stall_sbRacing (s t : State) : (stall s t).sbRacing = s.sbRacing := rfl
@[simp] theorem stall_freeCount (s t : State) : (stall s t).freeCount = s.freeCount + 1 := rfl

/-! ### endRace -/

@[simp] theorem endRace_control (s : State) : (endRace s).control = s.control := rfl
@[simp] theorem endRace_metadata (s : State) : (endRace s).metadata = s.metadata := rfl
@[simp] theorem endRace_seg (s : State) : (endRace s).seg = s.seg := rfl
@[simp] theorem endRace_stream (s : State) : (endRace s).stream = s.stream := rfl
@[simp] theorem endRace_sticky (s : State) : (endRace s).sticky = s.sticky := rfl
@[simp] theorem endRace_busy (s : State) : (endRace s).busy = s.busy := rfl
@[simp] theorem endRace_sb (s : State) : (endRace s).sb = s.sb := rfl
@[simp] theorem endRace_params (s : State) : (endRace s).params = s.params := rfl
@[simp] theorem endRace_port (s : State) : (endRace s).port = s.port := rfl
@[simp] theorem endRace_rsps (s : State) : (endRace s).rsps = s.rsps := rfl
@[simp] theorem endRace_sbRacing (s : State) : (endRace s).sbRacing = false := rfl
@[simp] theorem endRace_freeCount (s : State) : (endRace s).freeCount = s.freeCount + 1 := rfl

/-! ### applyReset -/

@[simp] theorem applyReset_control (s : State) : (applyReset s).control = .reset := rfl
@[simp] theorem applyReset_metadata (s : State) : (applyReset s).metadata = .reset := rfl
@[simp] theorem applyReset_seg (s : State) : (applyReset s).seg = .reset := rfl
@[simp] theorem applyReset_stream (s : State) : (applyReset s).stream = ⟨0#32, 0#2, 0#3, s.stream.out⟩ := rfl
@[simp] theorem applyReset_sticky (s : State) : (applyReset s).sticky = .clear := rfl
@[simp] theorem applyReset_busy (s : State) : (applyReset s).busy = false := rfl
@[simp] theorem applyReset_sb (s : State) : (applyReset s).sb = s.sb := rfl
@[simp] theorem applyReset_params (s : State) : (applyReset s).params = s.params := rfl
@[simp] theorem applyReset_port (s : State) : (applyReset s).port = s.port := rfl
@[simp] theorem applyReset_rsps (s : State) : (applyReset s).rsps = s.rsps := rfl
@[simp] theorem applyReset_sbRacing (s : State) : (applyReset s).sbRacing = false := rfl
@[simp] theorem applyReset_freeCount (s : State) : (applyReset s).freeCount = s.freeCount := rfl

/-! ### offerCommand -/

@[simp] theorem offerCommand_control (cmd dat : Word) (s : State) : (offerCommand cmd dat s).control = s.control := rfl
@[simp] theorem offerCommand_metadata (cmd dat : Word) (s : State) : (offerCommand cmd dat s).metadata = s.metadata := rfl
@[simp] theorem offerCommand_seg (cmd dat : Word) (s : State) : (offerCommand cmd dat s).seg = s.seg := rfl
@[simp] theorem offerCommand_stream (cmd dat : Word) (s : State) : (offerCommand cmd dat s).stream = s.stream := rfl
@[simp] theorem offerCommand_sticky (cmd dat : Word) (s : State) : (offerCommand cmd dat s).sticky = s.sticky := rfl
@[simp] theorem offerCommand_busy (cmd dat : Word) (s : State) : (offerCommand cmd dat s).busy = false := rfl
@[simp] theorem offerCommand_sb (cmd dat : Word) (s : State) : (offerCommand cmd dat s).sb = s.sb := rfl
@[simp] theorem offerCommand_params (cmd dat : Word) (s : State) : (offerCommand cmd dat s).params = s.params := rfl
@[simp] theorem offerCommand_port (cmd dat : Word) (s : State) : (offerCommand cmd dat s).port = .command cmd dat .good :: s.port := rfl
@[simp] theorem offerCommand_rsps (cmd dat : Word) (s : State) : (offerCommand cmd dat s).rsps = s.rsps := rfl
@[simp] theorem offerCommand_sbRacing (cmd dat : Word) (s : State) : (offerCommand cmd dat s).sbRacing = s.sbRacing := rfl
@[simp] theorem offerCommand_freeCount (cmd dat : Word) (s : State) : (offerCommand cmd dat s).freeCount = s.freeCount := rfl

/-! ### Parts of the state -/

@[simp] theorem clear_acc (st : PackedStream) : st.clear.acc = 0#32 := rfl
@[simp] theorem clear_bcnt (st : PackedStream) : st.clear.bcnt = 0#2 := rfl
@[simp] theorem clear_lcnt (st : PackedStream) : st.clear.lcnt = 0#3 := rfl
@[simp] theorem clear_out (st : PackedStream) : st.clear.out = st.out := rfl
@[simp] theorem emit_acc (k : RecordKind) (g : BitVec 2) (w : Word) (c : Bool) (st : PackedStream) :
    (emit k g w c st).acc = st.acc := rfl
@[simp] theorem emit_bcnt (k : RecordKind) (g : BitVec 2) (w : Word) (c : Bool) (st : PackedStream) :
    (emit k g w c st).bcnt = st.bcnt := rfl
@[simp] theorem emit_lcnt (k : RecordKind) (g : BitVec 2) (w : Word) (c : Bool) (st : PackedStream) :
    (emit k g w c st).lcnt = if c then st.lcnt + 1#3 else st.lcnt := rfl
@[simp] theorem emit_out (k : RecordKind) (g : BitVec 2) (w : Word) (c : Bool) (st : PackedStream) :
    (emit k g w c st).out = st.out ++ [⟨k, g, w, c && st.lcnt == 7#3⟩] := rfl
@[simp] theorem stickySet_illegal (k : Sticky) : k.set .illegal = { k with ill := true } := rfl
@[simp] theorem stickySet_notReady (k : Sticky) : k.set .notReady = { k with nrdy := true } := rfl
@[simp] theorem region_attack (g : SegResults) : g.region .attack = g.attack := rfl
@[simp] theorem region_loop (g : SegResults) : g.region .loop = g.loop := rfl
@[simp] theorem region_decay (g : SegResults) : g.region .decay = g.decay := rfl
@[simp] theorem invalidated_region (g : SegResults) (r : Region) :
    ({ g with segv := false, ok := false } : SegResults).region r = g.region r := by cases r <;> rfl
@[simp] theorem segment_segv (c : Control) (m : Metadata) : (segmentOf c m).segv = true := rfl
@[simp] theorem segment_ok (c : Control) (m : Metadata) : (segmentOf c m).ok = okBit c m := rfl
@[simp] theorem segment_smode (c : Control) (m : Metadata) : (segmentOf c m).smode = c.mode := rfl
@[simp] theorem segment_eOrder (c : Control) (m : Metadata) : (segmentOf c m).eOrder = orderViolated m := rfl
@[simp] theorem segment_eMalf (c : Control) (m : Metadata) : (segmentOf c m).eMalf = malformedBit m := rfl
@[simp] theorem segment_eLen (c : Control) (m : Metadata) : (segmentOf c m).eLen = lengthBit m := rfl
@[simp] theorem segment_eLooplen (c : Control) (m : Metadata) : (segmentOf c m).eLooplen = loopLenBit m := rfl
@[simp] theorem segment_eEndloop (c : Control) (m : Metadata) : (segmentOf c m).eEndloop = endLoopBit m := rfl
@[simp] theorem segment_wcTot (c : Control) (m : Metadata) : (segmentOf c m).wcTot = wordTotal c m := rfl
@[simp] theorem segment_region (c : Control) (m : Metadata) (r : Region) :
    (segmentOf c m).region r = derivedRegs c m r := by cases r <;> rfl

end Sys2Proof.Machine
end

