-- ==== Sys2Proof/Laws/Ops.lean ====
section
/-! SUPPORT. What each shared operation can do, once: the readiness check, the sample reads, the register map, and the
run of a command from the port. -/

namespace Sys2Proof.Machine

theorem ready_iff (g : SegResults) : g.ready = true ↔ g.segv = true ∧ g.ok = true := by
  simp [SegResults.ready]

/-- A region command has its effect or is NOTREADY (R203). -/
theorem whenReady_cases (s t : State) :
    (s.seg.ready = true ∧ whenReady s t = t) ∨ (¬s.seg.ready = true ∧ whenReady s t = raiseError .notReady s) := by
  unfold whenReady
  split <;> rename_i h
  · exact .inl ⟨h, rfl⟩
  · exact .inr ⟨h, rfl⟩

/-- With valid, exportable results the command has its effect. -/
theorem whenReady_of_ready (s t : State) (h : s.seg.ready = true) : whenReady s t = t := if_pos h

/-- Without them it is NOTREADY (R203). -/
theorem whenReady_of_not (s t : State) (h : ¬s.seg.ready = true) : whenReady s t = raiseError .notReady s := if_neg h

/-- A read of a stable buffer (R52). -/
theorem memRead_stable (s : State) (a : Word) (h : s.sbRacing = false) : memRead s a = s.sb.read a.toNat := by
  simp [memRead, h]

/-- A read depends on the buffer, the race and the free-value counter only. -/
theorem memRead_congr (s u : State) (a : Word) (h1 : u.sb = s.sb) (h2 : u.sbRacing = s.sbRacing)
    (h3 : u.freeCount = s.freeCount) : memRead u a = memRead s a := by
  simp only [memRead, h1, h2, h3]

/-- The bits of a one-bit word. -/
theorem bitAt_getLsbD (b : Bool) (k i : Nat) :
    (bitAt b k).getLsbD i = (decide (i < 32) && !decide (i < k) && (decide (i - k < 1) && b)) := by
  unfold bitAt
  rw [BitVec.getLsbD_shiftLeft, BitVec.getLsbD_setWidth, BitVec.getLsbD_ofBool]
  by_cases h : i - k = 0 <;> by_cases h2 : i < 32 <;> by_cases h3 : i < k <;> simp [h, h2, h3]

/-- The bits of STATUS, field by field (R24). -/
theorem statusWord_getLsbD (s : State) (i : Nat) :
    (statusWord s).getLsbD i =
      ((bitAt s.seg.segv 0).getLsbD i || (bitAt s.seg.ok 1).getLsbD i || (bitAt s.sticky.done 2).getLsbD i
        || (bitAt (Mode.bit s.seg.smode) 3).getLsbD i || (bitAt s.sticky.ill 4).getLsbD i
        || (bitAt s.sticky.nrdy 5).getLsbD i || (bitAt s.seg.eOrder 8).getLsbD i || (bitAt s.seg.eMalf 9).getLsbD i
        || (bitAt s.seg.eLen 10).getLsbD i || (bitAt s.seg.eLooplen 11).getLsbD i
        || (bitAt s.seg.eEndloop 12).getLsbD i || (s.stream.bcnt.setWidth 32 <<< 16 : Word).getLsbD i
        || (s.stream.lcnt.setWidth 32 <<< 20 : Word).getLsbD i || (bitAt (residualBit s.stream) 24).getLsbD i) := by
  unfold statusWord
  simp only [BitVec.getLsbD_or]

/-- Every register of the map is found at its address. -/
theorem ofAddr_addr (r : RegName) : RegName.ofAddr r.addr = some r := by
  cases r <;> first | decide | (rename_i r; cases r <;> decide)

/-- A register found at an address has that address. -/
theorem addr_of_ofAddr (ra : RegAddr) (r : RegName) (h : RegName.ofAddr ra = some r) : r.addr = ra := by
  have := List.find?_some h
  simpa using this

/-- A write changes CTRL or the metadata registers and nothing else. -/
theorem writeReg_frame (v : Word) (s : State) (r : RegName) :
    writeReg v s r = { s with control := (writeReg v s r).control, metadata := (writeReg v s r).metadata } := by
  cases r <;> rfl

@[simp] theorem writeReg_seg (v : Word) (s : State) (r : RegName) : (writeReg v s r).seg = s.seg := by
  cases r <;> rfl
@[simp] theorem writeReg_stream (v : Word) (s : State) (r : RegName) : (writeReg v s r).stream = s.stream := by
  cases r <;> rfl
@[simp] theorem writeReg_sticky (v : Word) (s : State) (r : RegName) : (writeReg v s r).sticky = s.sticky := by
  cases r <;> rfl
@[simp] theorem writeReg_busy (v : Word) (s : State) (r : RegName) : (writeReg v s r).busy = s.busy := by
  cases r <;> rfl
@[simp] theorem writeReg_sb (v : Word) (s : State) (r : RegName) : (writeReg v s r).sb = s.sb := by
  cases r <;> rfl
@[simp] theorem writeReg_params (v : Word) (s : State) (r : RegName) : (writeReg v s r).params = s.params := by
  cases r <;> rfl
@[simp] theorem writeReg_port (v : Word) (s : State) (r : RegName) : (writeReg v s r).port = s.port := by
  cases r <;> rfl
@[simp] theorem writeReg_rsps (v : Word) (s : State) (r : RegName) : (writeReg v s r).rsps = s.rsps := by
  cases r <;> rfl
@[simp] theorem writeReg_sbRacing (v : Word) (s : State) (r : RegName) : (writeReg v s r).sbRacing = s.sbRacing := by
  cases r <;> rfl
@[simp] theorem writeReg_freeCount (v : Word) (s : State) (r : RegName) :
    (writeReg v s r).freeCount = s.freeCount := by
  cases r <;> rfl

/-- WREG either refuses the address or writes a register and invalidates the segmentation (R102). -/
theorem execWreg_cases (ra : RegAddr) (dat : Word) (s : State) :
    (regWritable ra = false ∧ execWreg ra dat s = .next (raiseError .illegal s))
    ∨ ∃ r, RegName.ofAddr ra = some r ∧ r.access = .rw
        ∧ execWreg ra dat s = .next (complete 0#32 (invalidateSeg (writeReg dat s r))) := by
  unfold execWreg regWritable
  cases h : RegName.ofAddr ra with
  | none => exact .inl ⟨rfl, rfl⟩
  | some r =>
    cases hr : r.access with
    | ro => exact .inl ⟨by simp [hr], by simp [hr]⟩
    | rw => exact .inr ⟨r, rfl, hr, by simp [hr]⟩

/-- RREG either refuses the address or answers a register's value (R103). -/
theorem execRreg_cases (ra : RegAddr) (s : State) :
    (RegName.ofAddr ra = none ∧ execRreg ra s = .next (raiseError .illegal s))
    ∨ ∃ r, RegName.ofAddr ra = some r ∧ execRreg ra s = .next (complete (readReg s r) s) := by
  unfold execRreg
  cases h : RegName.ofAddr ra with
  | none => exact .inl ⟨rfl, rfl⟩
  | some r => exact .inr ⟨r, rfl, rfl⟩

/-- The state of a command that runs from the port is the result of the one that decodes, or ILLEGAL. -/
theorem runCommand_cases (cmd dat : Word) (s : State) :
    (∃ i, decode cmd dat = .ok i ∧ runCommand cmd dat s = exec i s)
    ∨ ∃ why, decode cmd dat = .illegal why ∧ runCommand cmd dat s = .next (raiseError .illegal s) := by
  unfold runCommand
  cases decode cmd dat with
  | ok i => exact .inl ⟨i, rfl, rfl⟩
  | illegal why => exact .inr ⟨why, rfl, rfl⟩

/-- No command stops the machine: there is no fault, and no meaning refuses. -/
theorem exec_isNext (i : Instr) (s : State) : ∃ t, exec i s = .next t := by
  cases i with
  | wreg ra dat => rcases execWreg_cases ra dat s with ⟨-, h⟩ | ⟨r, -, -, h⟩ <;> exact ⟨_, h⟩
  | rreg ra => rcases execRreg_cases ra s with ⟨-, h⟩ | ⟨r, -, h⟩ <;> exact ⟨_, h⟩
  | _ => exact ⟨_, rfl⟩

theorem runCommand_isNext (cmd dat : Word) (s : State) : ∃ t, runCommand cmd dat s = .next t := by
  rcases runCommand_cases cmd dat s with ⟨i, -, h⟩ | ⟨why, -, h⟩
  · rw [h]; exact exec_isNext i s
  · exact ⟨_, h⟩

/-- What a transferred command leads to: its result, that with the race ended, or a stall (R71, R221, R227). -/
theorem acceptCommand_cases (cmd dat : Word) (c : Conduct) (s : State) :
    ∃ t, runCommand cmd dat { s with sbRacing := !c.sbStable } = .next t
      ∧ acceptCommand cmd dat c s = .next
          (if c.completes then (if c.sbStable then t else endRace t) else stall s t) := by
  obtain ⟨t, h⟩ := runCommand_isNext cmd dat { s with sbRacing := !c.sbStable }
  refine ⟨t, h, ?_⟩
  unfold acceptCommand
  rw [h]
  cases c.completes <;> rfl

/-- Under good conduct, a transferred command is just run. -/
theorem acceptCommand_good (cmd dat : Word) (s : State) :
    acceptCommand cmd dat ⟨true, true⟩ s = runCommand cmd dat { s with sbRacing := false } := by
  obtain ⟨t, h, ha⟩ := acceptCommand_cases cmd dat ⟨true, true⟩ s
  rw [ha]
  exact h.symm

/-- An idle CORE accepts the command (R70). -/
theorem takeEvent_idle (cmd dat : Word) (c : Conduct) (rest : List HostEvent) (s : State) (h : s.busy = false) :
    takeEvent (.command cmd dat c) rest s = acceptCommand cmd dat c { s with port := rest } :=
  if_pos (by rw [cmdReady, h, Bool.not_false])

/-- A busy CORE leaves it on the port (R228). -/
theorem takeEvent_busy (cmd dat : Word) (c : Conduct) (rest : List HostEvent) (s : State) (h : s.busy = true) :
    takeEvent (.command cmd dat c) rest s = .next s :=
  if_neg (by rw [cmdReady, h]; decide)

/-- What a step can do: wait, run a command, write a byte of the buffer, or reset. -/
theorem step_cases (s t : State) (h : step s = .next t) :
    t = s
    ∨ (∃ cmd dat c rest u, s.port = .command cmd dat c :: rest ∧ s.busy = false
        ∧ runCommand cmd dat { s with port := rest, sbRacing := !c.sbStable } = .next u
        ∧ t = if c.completes then (if c.sbStable then u else endRace u) else stall { s with port := rest } u)
    ∨ (∃ a b rest, s.port = .writeSample a b :: rest ∧ t = { s with port := rest, sb := s.sb.write a.toNat b })
    ∨ (∃ rest, s.port = .reset :: rest ∧ t = applyReset { s with port := rest }) := by
  unfold step at h
  split at h
  · exact .inl (by simpa using h.symm)
  · rename_i e rest hp
    cases e with
    | command cmd dat c =>
      cases hb : s.busy with
      | true =>
        rw [takeEvent_busy cmd dat c rest s hb] at h
        exact .inl (by simpa using h.symm)
      | false =>
        obtain ⟨u, hu, ha⟩ := acceptCommand_cases cmd dat c { s with port := rest }
        rw [takeEvent_idle cmd dat c rest s hb, ha] at h
        refine .inr (.inl ⟨cmd, dat, c, rest, u, hp, rfl, ?_, ?_⟩)
        · rw [← hb]; exact hu
        · rw [← hb]; simpa using h.symm
    | writeSample a b =>
      exact .inr (.inr (.inl ⟨a, b, rest, hp, by simpa [takeEvent] using h.symm⟩))
    | reset => exact .inr (.inr (.inr ⟨rest, hp, by simpa [takeEvent] using h.symm⟩))

/-- The step of a command offered to an idle port under good conduct. -/
theorem step_command (s : State) (cmd dat : Word) (rest : List HostEvent)
    (hp : s.port = .command cmd dat ⟨true, true⟩ :: rest) (hb : s.busy = false) :
    step s = runCommand cmd dat { s with port := rest, sbRacing := false } := by
  unfold step
  rw [hp]
  show takeEvent _ _ _ = _
  rw [takeEvent_idle _ _ _ _ _ hb]
  exact acceptCommand_good cmd dat { s with port := rest }

/-- EXPORT either runs the three regions or is refused (R172). -/
theorem execExport_cases (s : State) :
    ((segmentOf s.control s.metadata).ok = true ∧ execExport s = .next
        (respond (segmentOf s.control s.metadata).wcTot false (validationCode (segmentOf s.control s.metadata))
          { s with
            seg := segmentOf s.control s.metadata
            stream := exportBody (segEffects (clearEffects s))
            sticky := ⟨false, false, true⟩ }))
    ∨ ((segmentOf s.control s.metadata).ok = false ∧ execExport s = .next
        (respond 0#32 true (validationCode (segmentOf s.control s.metadata)) (segEffects (clearEffects s)))) := by
  have hseg : (segEffects (clearEffects s)).seg = segmentOf s.control s.metadata := rfl
  unfold execExport exportAfterSeg
  cases h : (segmentOf s.control s.metadata).ok
  · refine .inr ⟨rfl, ?_⟩
    rw [if_neg (by rw [hseg, h]; decide)]
    rfl
  · refine .inl ⟨rfl, ?_⟩
    rw [if_pos (by rw [hseg, h])]
    rfl

/-- A command that decodes from its own encoding runs when it is transferred. -/
theorem step_transfer (i : Instr) (hd : decode (encode i).1 (encode i).2 = .ok i) (s : State) (rest : List HostEvent)
    (hp : s.port = .command (encode i).1 (encode i).2 .good :: rest) (hb : s.busy = false) :
    step s = exec i { s with port := rest, sbRacing := false } := by
  rw [step_command s _ _ rest hp hb]
  unfold runCommand
  rw [hd]

/-- A run begins with its first step. -/
theorem runSteps_succ (k : Nat) (s t : State) (h : step s = .next t) : runSteps (k + 1) s = runSteps k t := by
  simp only [runSteps, h]

/-- The host's own run is the same run. -/
theorem core_run_eq (k : Nat) (s : State) : Sys2Proof.core.run k s = runSteps k s := by
  induction k generalizing s with
  | zero => rfl
  | succ k ih =>
    have h : Sys2Proof.core.step s = step s := rfl
    simp only [Host.Core.run, runSteps, h]
    cases step s with
    | next t => exact ih t
    | fault f => rfl
    | refused r => rfl

end Sys2Proof.Machine
end

