-- ==== Sys2Proof/Laws/Packer.lean ====
section
/-! SUPPORT. The laws of the packer: what one push can do, and that the sequential operations over it are folds of push
over a list of bytes, so that a fact about push is proved of all of them at once. -/

namespace Sys2Proof.Machine

/-- A push into lane 3 emits the closed word and starts an empty one. -/
theorem push_of_full (b : Byte) (st : PackedStream) (h : st.bcnt = 3#2) :
    push b st = emit .data 0#2 (st.acc ||| (b.setWidth 32 <<< 24)) true { st with acc := 0#32, bcnt := 0#2 } := by
  unfold push
  rw [if_pos h, h]
  rfl

/-- A push into lanes 0 to 2 only fills the lane. -/
theorem push_of_room (b : Byte) (st : PackedStream) (h : st.bcnt ≠ 3#2) :
    push b st = { st with acc := st.acc ||| (b.setWidth 32 <<< (8 * st.bcnt.toNat)), bcnt := st.bcnt + 1#2 } := by
  unfold push
  rw [if_neg h]

/-- The alignment counter counts pushes modulo 4. -/
theorem push_bcnt (b : Byte) (st : PackedStream) : (push b st).bcnt = st.bcnt + 1#2 := by
  by_cases h : st.bcnt = 3#2
  · rw [push_of_full b st h, h]; rfl
  · rw [push_of_room b st h]

theorem push_bcnt_toNat (b : Byte) (st : PackedStream) : (push b st).bcnt.toNat = (st.bcnt.toNat + 1) % 4 := by
  rw [push_bcnt, BitVec.toNat_add]
  rfl

/-- The new records of a push: one DATA record if the byte closes a word, else none. -/
theorem push_out (b : Byte) (st : PackedStream) :
    ∃ recs : List OutRecord, (push b st).out = st.out ++ recs ∧ recs.length = (st.bcnt.toNat + 1) / 4
      ∧ ∀ r ∈ recs, r.kind = .data ∧ r.rg = 0#2 := by
  by_cases h : st.bcnt = 3#2
  · rw [push_of_full b st h, h]
    exact ⟨_, rfl, rfl, by simp⟩
  · refine ⟨[], by rw [push_of_room b st h, List.append_nil], ?_, by simp⟩
    have h3 : st.bcnt.toNat ≠ 3 := fun e => h (BitVec.eq_of_toNat_eq e)
    have := st.bcnt.isLt
    simp only [List.length_nil]
    omega

theorem push_out_length (b : Byte) (st : PackedStream) :
    (push b st).out.length = st.out.length + (st.bcnt.toNat + 1) / 4 := by
  obtain ⟨recs, ho, hl, -⟩ := push_out b st
  rw [ho, List.length_append, hl]

/-- A byte shifted to lane `n` lies below bit `8 * (n + 1)`. -/
theorem lane_lt (b : Byte) (n : Nat) :
    (b.setWidth 32 <<< (8 * n) : Word).toNat < 2 ^ (8 * (n + 1)) := by
  rw [BitVec.toNat_shiftLeft, BitVec.toNat_setWidth, Nat.shiftLeft_eq]
  have hb := b.isLt
  have h1 : b.toNat % 2 ^ 32 = b.toNat := Nat.mod_eq_of_lt (by omega)
  rw [h1]
  refine Nat.lt_of_le_of_lt (Nat.mod_le _ _) ?_
  rw [show 8 * (n + 1) = 8 + 8 * n by ring, Nat.pow_add]
  exact Nat.mul_lt_mul_of_pos_right hb (Nat.two_pow_pos _)

/-- A push keeps the bits of ACC at and above `8 * BCNT` zero (R34). -/
theorem push_acc (b : Byte) (st : PackedStream) (h : st.acc.toNat < 2 ^ (8 * st.bcnt.toNat)) :
    (push b st).acc.toNat < 2 ^ (8 * (push b st).bcnt.toNat) := by
  by_cases h3 : st.bcnt = 3#2
  · rw [push_of_full b st h3]
    simp
  · have hlt : st.bcnt.toNat + 1 ≤ 3 := by
      have : st.bcnt.toNat ≠ 3 := fun e => h3 (BitVec.eq_of_toNat_eq e)
      have := st.bcnt.isLt
      omega
    rw [push_bcnt_toNat, Nat.mod_eq_of_lt (by omega), push_of_room b st h3]
    show (st.acc ||| (b.setWidth 32 <<< (8 * st.bcnt.toNat))).toNat < _
    rw [BitVec.toNat_or]
    refine Nat.or_lt_two_pow ?_ (lane_lt b _)
    exact Nat.lt_of_lt_of_le h (Nat.pow_le_pow_right (by omega) (by omega))

/-- Push a list of bytes, the first one first. -/
abbrev pushAll (bs : List Byte) (st : PackedStream) : PackedStream := bs.foldl (fun st b => push b st) st

theorem pushAll_append (bs cs : List Byte) (st : PackedStream) :
    pushAll (bs ++ cs) st = pushAll cs (pushAll bs st) := List.foldl_append

/-- What every push keeps, a list of pushes keeps. -/
theorem pushAll_keeps {P : PackedStream → Prop} (h : ∀ b st, P st → P (push b st)) (bs : List Byte) :
    ∀ st, P st → P (pushAll bs st) := by
  induction bs with
  | nil => exact fun _ hs => hs
  | cons b rest ih => exact fun st hs => ih (push b st) (h b st hs)

/-- How far a list of pushes moves the alignment counter. -/
theorem pushAll_bcnt (bs : List Byte) (st : PackedStream) :
    (pushAll bs st).bcnt.toNat = (st.bcnt.toNat + bs.length) % 4 := by
  induction bs generalizing st with
  | nil => exact (Nat.mod_eq_of_lt st.bcnt.isLt).symm
  | cons b rest ih =>
    show (pushAll rest (push b st)).bcnt.toNat = _
    rw [ih, push_bcnt_toNat, List.length_cons]
    omega

/-- How many records a list of pushes appends: one for every fourth byte. -/
theorem pushAll_out_length (bs : List Byte) (st : PackedStream) :
    (pushAll bs st).out.length = st.out.length + (st.bcnt.toNat + bs.length) / 4 := by
  induction bs generalizing st with
  | nil =>
    have := st.bcnt.isLt
    show st.out.length = st.out.length + (st.bcnt.toNat + 0) / 4
    omega
  | cons b rest ih =>
    show (pushAll rest (push b st)).out.length = _
    rw [ih, push_out_length, push_bcnt_toNat, List.length_cons]
    omega

/-- The new records of a list of pushes are DATA records. -/
theorem pushAll_out (bs : List Byte) (st : PackedStream) :
    ∃ recs : List OutRecord, (pushAll bs st).out = st.out ++ recs ∧ ∀ r ∈ recs, r.kind = .data ∧ r.rg = 0#2 := by
  induction bs generalizing st with
  | nil => exact ⟨[], (List.append_nil _).symm, by simp⟩
  | cons b rest ih =>
    obtain ⟨r1, h1, -, k1⟩ := push_out b st
    obtain ⟨r2, h2, k2⟩ := ih (push b st)
    refine ⟨r1 ++ r2, ?_, ?_⟩
    · show (pushAll rest (push b st)).out = _
      rw [h2, h1, List.append_assoc]
    · intro r hr
      rcases List.mem_append.mp hr with hr | hr
      · exact k1 r hr
      · exact k2 r hr

/-- The bits of a word at and above a bound on its value are 0. -/
theorem getLsbD_of_lt_two_pow (w : Word) (k i : Nat) (h : w.toNat < 2 ^ k) (hi : k ≤ i) : w.getLsbD i = false := by
  rw [← BitVec.testBit_toNat]
  exact Nat.testBit_lt_two_pow (Nat.lt_of_lt_of_le h (Nat.pow_le_pow_right (by omega) hi))

/-- A byte put into the first free lane follows the pending bytes. -/
theorem laneBytes_fill (n : Nat) (hn : n ≤ 3) (acc : Word) (b : Byte) (h : acc.toNat < 2 ^ (8 * n)) :
    (laneBytes (acc ||| (b.setWidth 32 <<< (8 * n)))).take (n + 1) = (laneBytes acc).take n ++ [b] := by
  have old : ∀ k, k < n →
      (acc ||| (b.setWidth 32 <<< (8 * n))).extractLsb' (8 * k) 8 = acc.extractLsb' (8 * k) 8 := by
    intro k hk
    apply BitVec.eq_of_getLsbD_eq
    intro i hi
    rw [BitVec.getLsbD_extractLsb', BitVec.getLsbD_extractLsb', BitVec.getLsbD_or, BitVec.getLsbD_shiftLeft]
    have : 8 * k + i < 8 * n := by omega
    simp [this]
  have new : (acc ||| (b.setWidth 32 <<< (8 * n))).extractLsb' (8 * n) 8 = b := by
    apply BitVec.eq_of_getLsbD_eq
    intro i hi
    rw [BitVec.getLsbD_extractLsb', BitVec.getLsbD_or, BitVec.getLsbD_shiftLeft,
      getLsbD_of_lt_two_pow acc _ _ h (by omega)]
    have h1 : 8 * n + i < 32 := by omega
    have h2 : i < 32 := by omega
    simp [hi, h1, h2]
  have old0 := fun h => old 0 h
  have old1 := fun h => old 1 h
  have old2 := fun h => old 2 h
  interval_cases n <;> simp [laneBytes] at * <;> simp [*]

/-- The fourth byte makes the word of the three pending bytes and itself. -/
theorem closed_word (acc : Word) (b : Byte) (h : acc.toNat < 2 ^ 24) :
    acc ||| (b.setWidth 32 <<< 24)
      = packedWord (acc.extractLsb' 0 8) (acc.extractLsb' 8 8) (acc.extractLsb' 16 8) b := by
  apply BitVec.eq_of_getLsbD_eq
  intro i hi
  have h0 := getLsbD_of_lt_two_pow acc 24 i h
  unfold packedWord
  simp only [BitVec.getLsbD_or, BitVec.getLsbD_shiftLeft, BitVec.getLsbD_setWidth, BitVec.getLsbD_extractLsb']
  interval_cases i <;> simp at h0 ⊢ <;> simp [*]

theorem dataRecords_append (l : Nat) (xs ys : List Word) :
    dataRecords l (xs ++ ys) = dataRecords l xs ++ dataRecords (l + xs.length) ys := by
  induction xs generalizing l with
  | nil => rfl
  | cons x xs ih =>
    simp only [List.cons_append, dataRecords, ih, List.length_cons]
    rw [show l + 1 + xs.length = l + (xs.length + 1) by omega]

/-- Only the line position modulo 8 matters. -/
theorem dataRecords_mod (l l' : Nat) (xs : List Word) (h : l % 8 = l' % 8) : dataRecords l xs = dataRecords l' xs := by
  induction xs generalizing l l' with
  | nil => rfl
  | cons x xs ih =>
    simp only [dataRecords, h]
    rw [ih (l + 1) (l' + 1) (by omega)]

theorem packWords_length : ∀ bs : List Byte, (packWords bs).length = bs.length / 4
  | [] => rfl
  | [_] => by simp [packWords]
  | [_, _] => by simp [packWords]
  | [_, _, _] => by simp [packWords]
  | _ :: _ :: _ :: _ :: rest => by
    simp only [packWords, List.length_cons, packWords_length rest]
    omega

/-- Pushing zeros is pushing a list of zero bytes. -/
theorem pushZeros_eq (n : Nat) (st : PackedStream) : pushZeros n st = pushAll (List.replicate n 0x00#8) st := by
  induction n with
  | zero => rfl
  | succ n ih =>
    rw [pushZeros, ih, List.replicate_succ', pushAll_append]
    rfl

/-- Pushing one encoded sample is pushing its bytes. -/
theorem pushSample_eq (m : Mode) (x : Half) (st : PackedStream) :
    pushSample m x st = pushAll (sampleBytes m x) st := by
  cases m <;> rfl

/-- Pushing the first samples of a range is pushing their bytes in ascending order. -/
theorem pushSamples_eq (s : State) (rb : Word) (n : Nat) (st : PackedStream) :
    pushSamples s rb n st
      = pushAll ((List.range n).flatMap (fun i => sampleBytes s.seg.smode (readSample s rb i))) st := by
  induction n with
  | zero => rfl
  | succ n ih =>
    rw [pushSamples, ih, pushSample_eq, List.range_succ, List.flatMap_append, pushAll_append, List.flatMap_singleton]

/-- The body of REGION is its header and then a push of each of the region's bytes. -/
theorem regionBody_eq (s : State) (r : Region) (st : PackedStream) :
    regionBody s r st = pushAll (regionBytes s r) (emitHeader s r st) := by
  simp only [regionBody, pushPad, pushZeros_eq, pushSamples_eq, regionBytes, pushAll_append]

/-- How many bytes a sample makes. -/
theorem sampleBytes_length (m : Mode) (x : Half) : (sampleBytes m x).length = bytesPerSample m := by
  cases m <;> rfl

/-- How many bytes a region pushes (R170). -/
theorem regionBytes_length (s : State) (r : Region) :
    (regionBytes s r).length
      = (s.seg.region r).n.toNat * bytesPerSample s.seg.smode + (s.seg.region r).pad.toNat := by
  simp only [regionBytes, List.length_append, List.length_flatMap, sampleBytes_length, List.length_replicate,
    List.map_const', List.length_range, List.sum_replicate, smul_eq_mul]

/-- The body of REGION depends only on the segmenter results, the parameters and what the sample reads return. -/
theorem regionBody_congr (s u : State) (r : Region) (st : PackedStream) (hg : u.seg = s.seg)
    (hp : u.params = s.params) (hr : ∀ a, memRead u a = memRead s a) : regionBody u r st = regionBody s r st := by
  have hs : ∀ rb i, readSample u rb i = readSample s rb i := fun rb i => by simp only [readSample, hr]
  rw [regionBody_eq, regionBody_eq]
  simp only [regionBytes, emitHeader, hg, hp, hs]

end Sys2Proof.Machine
end

