-- ==== Sys2Proof/Laws/PerInstr.lean ====
section
/-! SUPPORT. The family of lemmas "an encoded command matches its row of the opcode table", one lemma per constructor. -/

namespace Sys2Proof.Laws

/-- The encoding of a command has its opcode, and its must-be-zero bits are zero: it matches the (match, mask) of its row
of the opcode table (30_encoding.md R74, R76). -/
def EncodedRow.Statement (i : Instr) : Prop :=
  ∃ fmt, formatOf i.opcode = some fmt
    ∧ opField (encode i).1 = i.opcode
    ∧ (encode i).1 &&& maskOf fmt = opBase i.opcode

theorem EncodedRow.nop : EncodedRow.Statement .nop :=
  ⟨.N, rfl, opField_N 0x0#4, mask_N 0x0#4⟩

theorem EncodedRow.clr : EncodedRow.Statement .clr :=
  ⟨.N, rfl, opField_N 0x1#4, mask_N 0x1#4⟩

theorem EncodedRow.wreg (ra : RegAddr) (dat : Word) : EncodedRow.Statement (.wreg ra dat) :=
  ⟨.G, rfl, opField_G 0x2#4 ra, mask_G 0x2#4 ra⟩

theorem EncodedRow.rreg (ra : RegAddr) : EncodedRow.Statement (.rreg ra) :=
  ⟨.G, rfl, opField_G 0x3#4 ra, mask_G 0x3#4 ra⟩

theorem EncodedRow.seg : EncodedRow.Statement .seg :=
  ⟨.N, rfl, opField_N 0x4#4, mask_N 0x4#4⟩

theorem EncodedRow.padq (n : Word) : EncodedRow.Statement (.padq n) :=
  ⟨.N, rfl, opField_N 0x5#4, mask_N 0x5#4⟩

theorem EncodedRow.wcq (n : Word) : EncodedRow.Statement (.wcq n) :=
  ⟨.N, rfl, opField_N 0x6#4, mask_N 0x6#4⟩

theorem EncodedRow.pcm (x : Half) : EncodedRow.Statement (.pcm x) :=
  ⟨.S, rfl, opField_S 0x7#4 x, mask_S 0x7#4 x⟩

theorem EncodedRow.mulaw (x : Half) : EncodedRow.Statement (.mulaw x) :=
  ⟨.S, rfl, opField_S 0x8#4 x, mask_S 0x8#4 x⟩

theorem EncodedRow.encq (x : Half) : EncodedRow.Statement (.encq x) :=
  ⟨.S, rfl, opField_S 0x9#4 x, mask_S 0x9#4 x⟩

theorem EncodedRow.pushb (b : Byte) : EncodedRow.Statement (.pushb b) :=
  ⟨.B, rfl, opField_B 0xA#4 b, mask_B 0xA#4 b⟩

theorem EncodedRow.pad (r : Region) : EncodedRow.Statement (.pad r) :=
  ⟨.R, rfl, opField_R 0xB#4 r, mask_R 0xB#4 r⟩

theorem EncodedRow.hdr (r : Region) : EncodedRow.Statement (.hdr r) :=
  ⟨.R, rfl, opField_R 0xC#4 r, mask_R 0xC#4 r⟩

theorem EncodedRow.region (r : Region) : EncodedRow.Statement (.region r) :=
  ⟨.R, rfl, opField_R 0xD#4 r, mask_R 0xD#4 r⟩

theorem EncodedRow.exportRun : EncodedRow.Statement .exportRun :=
  ⟨.N, rfl, opField_N 0xE#4, mask_N 0xE#4⟩

end Sys2Proof.Laws
end

