-- ==== Sys2Proof/Laws/Segment.lean ====
section
/-! SUPPORT. The arithmetic of the region alignment calculator: nothing wraps, and the derived registers are blank or
computed. -/

namespace Sys2Proof.Machine

theorem orderViolated_eq_false (m : Metadata) :
    orderViolated m = false ↔
      m.startOff.toNat ≤ m.sloop.toNat ∧ m.sloop.toNat ≤ m.eloop.toNat ∧ m.eloop.toNat ≤ m.endOff.toNat := by
  simp [orderViolated, and_assoc]

/-- What the MALFORMED bit says (R114). -/
theorem malformedBit_eq_true (m : Metadata) :
    malformedBit m = true ↔ orderViolated m = false
      ∧ (rangeLength m .attack % 2 = 1 ∨ rangeLength m .loop % 2 = 1 ∨ rangeLength m .decay % 2 = 1) := by
  cases h : orderViolated m <;> simp only [malformedBit, h, allRegions, List.any_cons, List.any_nil, Bool.not_false,
    Bool.not_true, Bool.true_and, Bool.false_and, Bool.or_false, Bool.or_eq_true, beq_iff_eq, true_and, reduceCtorEq,
    false_and]

/-- What the LENGTH bit says (R114). -/
theorem lengthBit_eq_true (m : Metadata) :
    lengthBit m = true ↔ orderViolated m = false
      ∧ (2 ^ 24 ≤ sampleCount m .attack ∨ 2 ^ 24 ≤ sampleCount m .loop ∨ 2 ^ 24 ≤ sampleCount m .decay) := by
  cases h : orderViolated m <;> simp only [lengthBit, h, allRegions, List.any_cons, List.any_nil, Bool.not_false,
    Bool.not_true, Bool.true_and, Bool.false_and, Bool.or_false, Bool.or_eq_true, decide_eq_true_eq, true_and,
    reduceCtorEq, false_and]

theorem loopLenBit_eq_true (m : Metadata) : loopLenBit m = true ↔ m.dur.toNat ≤ m.ldur.toNat := decide_eq_true_iff

theorem endLoopBit_eq_true (m : Metadata) : endLoopBit m = true ↔ m.dur.toNat < m.eloop.toNat := decide_eq_true_iff

/-- What OK says (R117). -/
theorem okBit_eq_true (c : Control) (m : Metadata) :
    okBit c m = true ↔ (orderViolated m = false ∧ malformedBit m = false ∧ lengthBit m = false)
      ∧ ((loopLenBit m = false ∧ endLoopBit m = false) ∨ c.force = true) := by
  simp only [okBit, fatalBit, Bool.and_eq_true, Bool.or_eq_true, Bool.not_eq_true', Bool.or_eq_false_iff, and_assoc]

theorem padCount_lt (n : Nat) : padCount n < 128 := Nat.mod_lt _ (by decide)

theorem add_padCount_mod (n : Nat) : (n + padCount n) % 128 = 0 := by
  unfold padCount alignBlock
  omega

theorem bytesPerSample_le (m : Mode) : bytesPerSample m ≤ 2 := by cases m <;> decide

/-- The word count without its rounding term, which never matters (R111). -/
theorem wordCount_eq (n : Nat) (m : Mode) : wordCount n m = (n + padCount n) * bytesPerSample m / 4 + 1 := by
  have h := add_padCount_mod n
  unfold wordCount
  cases m <;> simp only [bytesPerSample] <;> omega

theorem wordCount_le (n : Nat) (m : Mode) (h : n < 2 ^ 24) : wordCount n m ≤ 2 ^ 23 + 1 := by
  have h1 := add_padCount_mod n
  have h2 := padCount_lt n
  rw [wordCount_eq]
  cases m <;> simp only [bytesPerSample] <;> omega

theorem rangeEnd_lt (m : Metadata) (r : Region) : rangeEnd m r < 2 ^ 32 := by
  have h1 := m.sloop.isLt
  have h2 := m.eloop.isLt
  have h3 := m.endOff.isLt
  cases r <;> simp only [rangeEnd] <;> omega

theorem rangeStart_lt (m : Metadata) (r : Region) : rangeStart m r < 2 ^ 32 := by
  have h1 := m.sloop.isLt
  have h2 := m.eloop.isLt
  cases r <;> simp only [rangeStart] <;> omega

theorem sampleCount_lt (m : Metadata) (r : Region) : sampleCount m r < 2 ^ 31 := by
  have := rangeEnd_lt m r
  simp only [sampleCount, rangeLength]
  omega

theorem wordCount_lt (m : Metadata) (r : Region) (c : Mode) : wordCount (sampleCount m r) c < 2 ^ 32 := by
  have h1 := sampleCount_lt m r
  have h2 := padCount_lt (sampleCount m r)
  rw [wordCount_eq]
  cases c <;> simp only [bytesPerSample] <;> omega

/-- Every computed register holds its value unwrapped (R117). -/
theorem regionRegsOf_toNat (c : Control) (m : Metadata) (r : Region) :
    (regionRegsOf c m r).rb.toNat = rangeStart m r ∧ (regionRegsOf c m r).re.toNat = rangeEnd m r
    ∧ (regionRegsOf c m r).n.toNat = sampleCount m r
    ∧ (regionRegsOf c m r).pad.toNat = padCount (sampleCount m r)
    ∧ (regionRegsOf c m r).wc.toNat = wordCount (sampleCount m r) c.mode := by
  have h1 := rangeStart_lt m r
  have h2 := rangeEnd_lt m r
  have h3 := sampleCount_lt m r
  have h4 := padCount_lt (sampleCount m r)
  have h5 := wordCount_lt m r c.mode
  simp only [regionRegsOf, BitVec.toNat_ofNat]
  refine ⟨?_, ?_, ?_, ?_, ?_⟩ <;> apply Nat.mod_eq_of_lt <;> omega

theorem derivedRegs_of_fatal (c : Control) (m : Metadata) (r : Region) (h : fatalBit m = true) :
    derivedRegs c m r = .zero := if_pos h

theorem derivedRegs_of_not_fatal (c : Control) (m : Metadata) (r : Region) (h : fatalBit m = false) :
    derivedRegs c m r = regionRegsOf c m r := if_neg (by rw [h]; decide)

/-- What it means that nothing is fatal: the order holds, every length is even, every count is below 2^24. -/
theorem fatalBit_eq_false (m : Metadata) :
    fatalBit m = false ↔ orderViolated m = false
      ∧ ∀ r, rangeLength m r % 2 = 0 ∧ sampleCount m r < 2 ^ 24 := by
  have hall : (∀ r, rangeLength m r % 2 = 0 ∧ sampleCount m r < 2 ^ 24)
      ↔ (rangeLength m .attack % 2 = 0 ∧ sampleCount m .attack < 2 ^ 24)
        ∧ (rangeLength m .loop % 2 = 0 ∧ sampleCount m .loop < 2 ^ 24)
        ∧ (rangeLength m .decay % 2 = 0 ∧ sampleCount m .decay < 2 ^ 24) :=
    ⟨fun h => ⟨h _, h _, h _⟩, fun h r => by cases r; exacts [h.1, h.2.1, h.2.2]⟩
  rw [hall]
  cases ho : orderViolated m
  · simp only [fatalBit, malformedBit, lengthBit, ho, allRegions, List.any_cons, List.any_nil, Bool.not_false,
      Bool.true_and, Bool.false_or, Bool.or_false, Bool.or_eq_false_iff, beq_eq_false_iff_ne, decide_eq_false_iff_not,
      not_le, true_and, ne_eq]
    omega
  · simp [fatalBit, ho]

theorem wordTotal_toNat (c : Control) (m : Metadata) (h : fatalBit m = false) :
    (wordTotal c m).toNat = wordCount (sampleCount m .attack) c.mode + wordCount (sampleCount m .loop) c.mode
      + wordCount (sampleCount m .decay) c.mode := by
  have hn := ((fatalBit_eq_false m).mp h).2
  have h1 := wordCount_le _ c.mode (hn .attack).2
  have h2 := wordCount_le _ c.mode (hn .loop).2
  have h3 := wordCount_le _ c.mode (hn .decay).2
  simp only [wordTotal, derivedRegs_of_not_fatal c m _ h, BitVec.toNat_add, (regionRegsOf_toNat c m _).2.2.2.2]
  omega

/-- SEG with a fatal error leaves the derived registers blank (R117). -/
theorem segment_blank (c : Control) (m : Metadata) (h : fatalBit m = true) : (segmentOf c m).Blank where
  regions r := by rw [segment_region, derivedRegs_of_fatal c m r h]
  total := by
    rw [segment_wcTot]
    simp only [wordTotal, derivedRegs_of_fatal c m _ h]
    rfl

/-- SEG without a fatal error computes the derived registers (R112, R117). -/
theorem segment_computed (c : Control) (m : Metadata) (h : fatalBit m = false) : (segmentOf c m).Computed := by
  obtain ⟨ho, hn⟩ := (fatalBit_eq_false m).mp h
  have hord := (orderViolated_eq_false m).mp ho
  have hreg : ∀ r, (segmentOf c m).region r = regionRegsOf c m r := fun r => by
    rw [segment_region, derivedRegs_of_not_fatal c m r h]
  have ha : (segmentOf c m).attack = regionRegsOf c m .attack := hreg .attack
  have hl : (segmentOf c m).loop = regionRegsOf c m .loop := hreg .loop
  have hd : (segmentOf c m).decay = regionRegsOf c m .decay := hreg .decay
  refine ⟨fun r => ?_, ?_, ?_, ?_, ?_⟩
  · obtain ⟨h1, h2, h3, h4, h5⟩ := regionRegsOf_toNat c m r
    rw [hreg r]
    refine ⟨by rw [h3]; exact (hn r).2, ?_, by rw [h4, h3], by rw [h5, h3, segment_smode]⟩
    rw [h1, h2, h3]
    have := (hn r).1
    cases r <;> simp only [sampleCount, rangeLength, rangeStart, rangeEnd] at this ⊢ <;> omega
  · rw [ha]; rfl
  · rw [ha, hl]; rfl
  · rw [hl, hd]; rfl
  · rw [segment_wcTot, wordTotal_toNat c m h, ha, hl, hd, (regionRegsOf_toNat c m .attack).2.2.2.2,
      (regionRegsOf_toNat c m .loop).2.2.2.2, (regionRegsOf_toNat c m .decay).2.2.2.2]

theorem not_fatal_of_ok (c : Control) (m : Metadata) (h : okBit c m = true) : fatalBit m = false := by
  simp only [okBit, Bool.and_eq_true, Bool.not_eq_true'] at h
  exact h.1

end Sys2Proof.Machine
end

