-- ==== Sys2Proof/Tests/Slice0.lean ====
section
/-! SUPPORT. The model's own tests, each a named theorem: the smoke test of WellFormed, the decoding of written-out words,
one step of each command against the spec's own examples, and for every obligation with hypotheses a witness that meets
them, clause by clause and at the ends of the ranges. -/

namespace Sys2Proof.Tests

open Sys2Proof.Machine

/-- What a test looks at in a next state. -/
def after {α : Type} (o : Host.Outcome State Fault Refusal) (f : State → α) : Option α :=
  match o with
  | .next t => some (f t)
  | .fault _ => none
  | .refused _ => none

/-- The reset state with the results of a SEG of the given mode and metadata in it. -/
def segged (m : Mode) (md : Metadata) : State :=
  { State.reset with control := ⟨m, false⟩, metadata := md, seg := segmentOf ⟨m, false⟩ md }

/-- Four samples in the Attack region, none in the others: the setting of the examples of R155 and R170. -/
def fourSamples : Metadata := ⟨0#32, 8#32, 8#32, 8#32, 8#32, 0#32⟩

/-- The source's scenario of §8 (R117): 128 samples in each region. -/
def scenario : Metadata := ⟨0#32, 768#32, 256#32, 512#32, 768#32, 256#32⟩

/-- SB with the samples 0, 0x50, -0x50, 0x7FFF from address 0 on (R170). -/
def fourSampleBytes : Memory := [(2, 0x50#8), (4, 0xB0#8), (5, 0xFF#8), (6, 0xFF#8), (7, 0x7F#8)]

/-- A state with pending bytes: the packer of R101's example. -/
def pending : PackedStream := ⟨0x00CCBBAA#32, 3#2, 0#3, []⟩

/-! ### WellFormed: each check refuses an ill-formed term -/

theorem test_wellFormed_wreg_readOnly : (Instr.wreg 0x01#8 0#32).wellFormed = false := by decide
theorem test_wellFormed_wreg_acc : (Instr.wreg 0x08#8 0#32).wellFormed = false := by decide
theorem test_wellFormed_wreg_undefined : (Instr.wreg 0x09#8 0#32).wellFormed = false := by decide
theorem test_wellFormed_rreg_gap : (Instr.rreg 0x09#8).wellFormed = false := by decide
theorem test_wellFormed_rreg_top : (Instr.rreg 0x27#8).wellFormed = false := by decide
theorem test_wellFormed_accepts :
    (Instr.wreg 0x07#8 0#32).wellFormed = true ∧ (Instr.rreg 0x26#8).wellFormed = true := by decide

/-! ### Decoding: a word written out from R73 to R76 for every command -/

theorem test_decode_control :
    decode 0x00000000#32 0xFFFFFFFF#32 = .ok .nop ∧ decode 0x10000000#32 0#32 = .ok .clr
    ∧ decode 0x20070000#32 0x12345678#32 = .ok (.wreg 0x07#8 0x12345678#32)
    ∧ decode 0x30010000#32 0#32 = .ok (.rreg 0x01#8) := by decide

theorem test_decode_segmenter :
    decode 0x40000000#32 0#32 = .ok .seg ∧ decode 0x50000000#32 300#32 = .ok (.padq 300#32)
    ∧ decode 0x60000000#32 300#32 = .ok (.wcq 300#32) := by decide

theorem test_decode_encoder :
    decode 0x70001234#32 0#32 = .ok (.pcm 0x1234#16) ∧ decode 0x80000050#32 0#32 = .ok (.mulaw 0x0050#16)
    ∧ decode 0x9000FFB0#32 0#32 = .ok (.encq 0xFFB0#16) := by decide

theorem test_decode_packer :
    decode 0xA0000011#32 0#32 = .ok (.pushb 0x11#8) ∧ decode 0xB2000000#32 0#32 = .ok (.pad .decay)
    ∧ decode 0xC0000000#32 0#32 = .ok (.hdr .attack) := by decide

theorem test_decode_sequencer :
    decode 0xD1000000#32 0#32 = .ok (.region .loop) ∧ decode 0xE0000000#32 0#32 = .ok .exportRun := by decide

/-- R78: a reserved opcode, a set bit that must be zero, a fourth region. -/
theorem test_decode_illegal :
    decode 0xF0000000#32 0#32 = .illegal .reservedOpcode
    ∧ decode 0x00000001#32 0#32 = .illegal .nonzeroReservedBits
    ∧ decode 0xA00001FF#32 0#32 = .illegal .nonzeroReservedBits
    ∧ decode 0x21070000#32 0#32 = .illegal .nonzeroReservedBits
    ∧ decode 0xB3000000#32 0#32 = .illegal .reservedRegion := by decide

theorem test_decodeTableWord :
    decodeTableWord 32 0x70001234 = some (.pcm 0x1234#16) ∧ decodeTableWord 32 0xF0000000 = none := by decide

/-- The step after withFetchWord runs the word: R133's example. -/
theorem test_withFetchWord :
    after (step (State.reset.withFetchWord 32 0x70001234)) (fun t => (t.stream.acc, t.stream.bcnt))
      = some (0x00001234#32, 2#2) := by decide

/-- R80: the listing of `WREG START, 0`, and of `MULAW -80`. -/
theorem test_encode :
    encode (.wreg RegName.startOff.addr 0#32) = (0x20020000#32, 0#32)
    ∧ (assemble (.mulaw (-80))).map encode = some (0x8000FFB0#32, 0#32) := by decide

/-! ### Memory -/

theorem test_reset_buffer_wf : State.reset.sb.wf = true := by decide
theorem test_buffer_reads_back : (Memory.write fourSampleBytes 3 0x11#8).read 3 = 0x11#8 := by decide
theorem test_buffer_drops_unlisted : Memory.write [(2, 0x50#8)] 2 0x00#8 = [] := by decide

/-! ### One step of each command, against the examples of its rule -/

/-- R100. -/
theorem test_nop : after (exec .nop State.reset) (fun t => t.rsps) = some [⟨0#32, false, 0#4⟩] := by decide

/-- R101: the residue is discarded, and no record is emitted. -/
theorem test_clr :
    after (exec .clr { State.reset with stream := pending }) (fun t => t.stream) = some ⟨0#32, 0#2, 0#3, []⟩ := by
  decide

/-- R102: of 0xFFFFFFFC, MODE and FORCE are 0, and SEGV and OK are cleared. -/
theorem test_wreg_ctrl :
    after (exec (.wreg 0x00#8 0xFFFFFFFC#32) (segged .mulaw scenario)) (fun t => (t.control, t.seg.segv, t.seg.ok))
      = some (⟨.pcm, false⟩, false, false) := by decide

/-- R102: STATUS is read-only. -/
theorem test_wreg_status :
    after (exec (.wreg 0x01#8 0#32) State.reset) (fun t => (t.sticky.ill, t.rsps))
      = some (true, [⟨0#32, true, 1#4⟩]) := by decide

/-- R103: after reset STATUS reads 0. -/
theorem test_rreg_status :
    after (exec (.rreg 0x01#8) State.reset) (fun t => t.rsps) = some [⟨0#32, false, 0#4⟩] := by decide

/-- R117: the scenario's word total. -/
theorem test_seg_scenario :
    after (exec .seg { State.reset with metadata := scenario }) (fun t => (t.rsps, t.seg.loop))
      = some ([⟨195#32, false, 0#4⟩], ⟨256#32, 512#32, 128#32, 0#32, 65#32⟩) := by decide

/-- R222: the reset metadata is refused with LOOPLEN. -/
theorem test_seg_reset :
    after (exec .seg State.reset) (fun t => t.rsps) = some [⟨3#32, true, 6#4⟩] := by decide

/-- R118. -/
theorem test_padq : after (exec (.padq 300#32) State.reset) (fun t => t.rsps) = some [⟨84#32, false, 0#4⟩] := by decide

/-- R119: the greatest operand, in PCM mode. -/
theorem test_wcq :
    after (exec (.wcq 0xFFFFFFFF#32) State.reset) (fun t => t.rsps) = some [⟨0x80000001#32, false, 0#4⟩] := by decide

/-- R133: the low byte first, across a word's end. -/
theorem test_pcm_straddles :
    after (exec (.pcm 0x8000#16) { State.reset with stream := pending }) (fun t => t.stream)
      = some ⟨0x00000080#32, 1#2, 1#3, [⟨.data, 0#2, 0x00CCBBAA#32, false⟩]⟩ := by decide

/-- R134. -/
theorem test_mulaw :
    after (exec (.mulaw 0x8000#16) State.reset) (fun t => (t.stream.acc, t.stream.bcnt))
      = some (0x000000FF#32, 1#2) := by decide

/-- R135. -/
theorem test_encq :
    after (exec (.encq 0xFFB0#16) State.reset) (fun t => t.rsps) = some [⟨0x8A#32, false, 0#4⟩] := by decide

/-- R154 and R153: the fourth byte closes the eighth word of a line. -/
theorem test_pushb_closes_line :
    after (exec (.pushb 0x44#8) { State.reset with stream := ⟨0x00332211#32, 3#2, 7#3, []⟩ }) (fun t => t.stream)
      = some ⟨0#32, 0#2, 0#3, [⟨.data, 0#2, 0x44332211#32, true⟩]⟩ := by decide

/-- R155: 124 pad bytes are 31 words. -/
theorem test_pad :
    after (exec (.pad .attack) (segged .pcm fourSamples)) (fun t => (t.stream.out.length, t.stream.bcnt))
      = some (31, 0#2) := by decide +kernel

/-- R157. -/
theorem test_hdr :
    after (exec (.hdr .attack) (segged .pcm scenario)) (fun t => t.stream)
      = some ⟨0#32, 0#2, 0#3, [⟨.hdr, 0#2, 0x81000080#32, false⟩]⟩ := by decide

/-- R170. -/
theorem test_region :
    after (exec (.region .attack) { segged .mulaw fourSamples with sb := fourSampleBytes })
        (fun t => (t.stream.out.take 2, t.rsps))
      = some ([⟨.hdr, 0#2, 0x01000004#32, false⟩, ⟨.data, 0#2, 0x7F8A0A00#32, false⟩], [⟨33#32, false, 0#4⟩]) := by
  decide +kernel

/-- R174: two samples in each region, in PCM mode. -/
theorem test_export_residue :
    after (exec .exportRun { State.reset with metadata := ⟨0#32, 12#32, 4#32, 8#32, 12#32, 4#32⟩ })
        (fun t => (t.stream.out.length, t.stream.bcnt, t.rsps))
      = some (100, 2#2, [⟨195#32, false, 0#4⟩]) := by decide +kernel

/-- R222: EXPORT refuses the reset metadata and emits nothing. -/
theorem test_export_refused :
    after (exec .exportRun State.reset) (fun t => (t.stream.out, t.rsps)) = some ([], [⟨0#32, true, 6#4⟩]) := by decide

/-! ### Witnesses: the hypotheses of the obligations can be met -/

/-- The word classes of the statements on NOP, CLR, SEG, PADQ, WCQ and EXPORT: a word of the opcode that is not its
command. -/
theorem witness_wrongWord_N :
    (0x00000001#32 : Word).extractLsb' 28 4 = 0x0#4 ∧ (0x10000001#32 : Word).extractLsb' 28 4 = 0x1#4
    ∧ (0x48000000#32 : Word).extractLsb' 28 4 = 0x4#4 ∧ (0x50000001#32 : Word).extractLsb' 28 4 = 0x5#4
    ∧ (0x60000001#32 : Word).extractLsb' 28 4 = 0x6#4 ∧ (0xE0000001#32 : Word).extractLsb' 28 4 = 0xE#4
    ∧ 0x00000001#32 ≠ 0x00000000#32 ∧ 0x10000001#32 ≠ 0x10000000#32 ∧ 0x48000000#32 ≠ 0x40000000#32
    ∧ 0x50000001#32 ≠ 0x50000000#32 ∧ 0x60000001#32 ≠ 0x60000000#32 ∧ 0xE0000001#32 ≠ 0xE0000000#32 := by decide

/-- WregWritesAndInvalidates: the ends of the refused addresses, the writable ones, CTRL with 0xFFFFFFFC, words of
opcode 2 of both classes. -/
theorem witness_wreg :
    (0x01#8 = 0x01#8 ∨ 0x07#8 < 0x01#8) ∧ (0x08#8 = 0x01#8 ∨ 0x07#8 < 0x08#8) ∧ (0xFF#8 = 0x01#8 ∨ 0x07#8 < 0xFF#8)
    ∧ 0x00#8 ∈ [0x00#8, 0x02#8, 0x03#8, 0x04#8, 0x05#8, 0x06#8, 0x07#8]
    ∧ 0x07#8 ∈ [0x00#8, 0x02#8, 0x03#8, 0x04#8, 0x05#8, 0x06#8, 0x07#8]
    ∧ (0x20FF0000#32 : Word).extractLsb' 28 4 = 0x2#4 ∧ 0x20FF0000#32 &&& 0xFF00FFFF#32 = 0x20000000#32
    ∧ (0x20FF0001#32 : Word).extractLsb' 28 4 = 0x2#4 ∧ 0x20FF0001#32 &&& 0xFF00FFFF#32 ≠ 0x20000000#32 := by decide

/-- RregReadsTheRegisterMap: the first and the last address, undefined ones between and after, words of opcode 3. -/
theorem witness_rreg :
    (∃ p ∈ registerMap State.reset, p.1 = 0x00#8) ∧ (∃ p ∈ registerMap State.reset, p.1 = 0x26#8)
    ∧ (∀ p ∈ registerMap State.reset, p.1 ≠ 0x09#8) ∧ (∀ p ∈ registerMap State.reset, p.1 ≠ 0xFF#8) := by
  refine ⟨⟨_, List.getElem_mem (l := registerMap State.reset) (n := 0) (by decide), rfl⟩,
    ⟨_, List.getElem_mem (l := registerMap State.reset) (n := 27) (by decide), rfl⟩, ?_, ?_⟩ <;>
    simp [registerMap]

theorem witness_rreg_words :
    (0x30FF0000#32 : Word).extractLsb' 28 4 = 0x3#4 ∧ 0x30FF0000#32 &&& 0xFF00FFFF#32 = 0x30000000#32
    ∧ (0x38000000#32 : Word).extractLsb' 28 4 = 0x3#4 ∧ 0x38000000#32 &&& 0xFF00FFFF#32 ≠ 0x30000000#32 := by decide

/-- StaleSegmentationRefused and LiveModeReachesNoRegionCommand. -/
theorem witness_staleSegmentation :
    0x04#8 ∈ [0x00#8, 0x02#8, 0x03#8, 0x04#8, 0x05#8, 0x06#8, 0x07#8]
    ∧ Instr.pad .attack ∈ [Instr.pad .attack, .hdr .attack, .region .attack]
    ∧ Instr.hdr .loop ∈ [Instr.pad .loop, .hdr .loop, .region .loop]
    ∧ Instr.region .decay ∈ [Instr.pad .decay, .hdr .decay, .region .decay] := by decide

/-- SegDerivedRegisters: metadata with a fatal bit, and without one. -/
theorem witness_fatal :
    (segmentOf ⟨.pcm, false⟩ ⟨1#32, 0#32, 0#32, 0#32, 1#32, 0#32⟩).eOrder = true
    ∧ ((segmentOf ⟨.pcm, false⟩ scenario).eOrder || (segmentOf ⟨.pcm, false⟩ scenario).eMalf
        || (segmentOf ⟨.pcm, false⟩ scenario).eLen) = false := by decide

/-- The two sides of OK: SegmenterLaws, the EXPORT statements. -/
theorem witness_okBoth :
    (segmentOf ⟨.mulaw, false⟩ scenario).ok = true ∧ (segmentOf ⟨.pcm, false⟩ scenario).ok = true
    ∧ (segmentOf ⟨.pcm, false⟩ Metadata.reset).ok = false ∧ orderViolated scenario = false
    ∧ (rangeStart scenario .loop ≤ 511 ∧ 511 < rangeEnd scenario .loop) := by decide

/-- MulawTierTable: both ends of the input range of each tier. -/
theorem witness_tiers :
    ((0x0000#16 : Half).toInt.natAbs = 0 ∧ (0x007F#16 : Half).toInt.natAbs = 127)
    ∧ ((0x0080#16 : Half).toInt.natAbs = 128 ∧ (0x017F#16 : Half).toInt.natAbs = 383)
    ∧ ((0x0180#16 : Half).toInt.natAbs = 384 ∧ (0x037F#16 : Half).toInt.natAbs = 895)
    ∧ ((0x0380#16 : Half).toInt.natAbs = 896 ∧ (0x077F#16 : Half).toInt.natAbs = 1919)
    ∧ ((0x0780#16 : Half).toInt.natAbs = 1920 ∧ (0x0F7F#16 : Half).toInt.natAbs = 3967)
    ∧ ((0x0F80#16 : Half).toInt.natAbs = 3968 ∧ (0x1F7F#16 : Half).toInt.natAbs = 8063)
    ∧ ((0x1F80#16 : Half).toInt.natAbs = 8064 ∧ (0x3F7F#16 : Half).toInt.natAbs = 16255)
    ∧ ((0x3F80#16 : Half).toInt.natAbs = 16256 ∧ (0x8000#16 : Half).toInt.natAbs = 32768) := by decide

/-- MulawMonotoneAndOnto: pairs in order on both sides of zero, and the ends of the first ranges. -/
theorem witness_monotone :
    (0 ≤ (0x0000#16 : Half).toInt ∧ (0x0000#16 : Half).toInt ≤ (0x7FFF#16 : Half).toInt)
    ∧ ((0xFFFF#16 : Half).toInt < 0 ∧ (0x8000#16 : Half).toInt ≤ (0xFFFF#16 : Half).toInt)
    ∧ (0 ≤ (0x0007#16 : Half).toInt ∧ (0x0007#16 : Half).toInt ≤ 7)
    ∧ (-7 ≤ (0xFFF9#16 : Half).toInt ∧ (0xFFF9#16 : Half).toInt ≤ -1) := by decide

/-- PCM, MULAW, ENCQ and PUSHB: a word of the opcode that is the command, and one that is not. -/
theorem witness_immediateWords :
    ((0x7000FFFF#32 : Word).extractLsb' 28 4 = 0x7#4 ∧ 0x7000FFFF#32 &&& 0xFFFF0000#32 = 0x70000000#32
      ∧ (0x70010000#32 : Word).extractLsb' 28 4 = 0x7#4 ∧ 0x70010000#32 &&& 0xFFFF0000#32 ≠ 0x70000000#32)
    ∧ ((0x8000FFFF#32 : Word).extractLsb' 28 4 = 0x8#4 ∧ 0x8000FFFF#32 &&& 0xFFFF0000#32 = 0x80000000#32
      ∧ (0x80010000#32 : Word).extractLsb' 28 4 = 0x8#4 ∧ 0x80010000#32 &&& 0xFFFF0000#32 ≠ 0x80000000#32)
    ∧ ((0x9000FFFF#32 : Word).extractLsb' 28 4 = 0x9#4 ∧ 0x9000FFFF#32 &&& 0xFFFF0000#32 = 0x90000000#32
      ∧ (0x98000000#32 : Word).extractLsb' 28 4 = 0x9#4 ∧ 0x98000000#32 &&& 0xFFFF0000#32 ≠ 0x90000000#32)
    ∧ ((0xA00000FF#32 : Word).extractLsb' 28 4 = 0xA#4 ∧ 0xA00000FF#32 &&& 0xFFFFFF00#32 = 0xA0000000#32
      ∧ (0xA0000100#32 : Word).extractLsb' 28 4 = 0xA#4 ∧ 0xA0000100#32 &&& 0xFFFFFF00#32 ≠ 0xA0000000#32) := by
  decide

/-- PushClosesOnFourthByte, and PackerIsAByteStream with its bound tight at every BCNT. -/
theorem witness_packer :
    pending.bcnt = 3#2 ∧ (PackedStream.mk 0#32 2#2 0#3 []).bcnt ≠ 3#2
    ∧ pending.acc.toNat < 2 ^ (8 * pending.bcnt.toNat)
    ∧ (0#32 : Word).toNat < 2 ^ (8 * (0#2 : BitVec 2).toNat)
    ∧ (0xFF#32 : Word).toNat < 2 ^ (8 * (1#2 : BitVec 2).toNat)
    ∧ (0xFFFF#32 : Word).toNat < 2 ^ (8 * (2#2 : BitVec 2).toNat)
    ∧ (0xFFFFFF#32 : Word).toNat < 2 ^ (8 * (3#2 : BitVec 2).toNat) := by decide

/-- FourBytesCloseOneWord, ExportEqualsExportM and the premises "not busy, no race". -/
theorem witness_idle :
    State.reset.busy = false ∧ State.reset.sbRacing = false ∧ State.reset.stream.bcnt = 0#2
    ∧ State.reset.stream.acc = 0#32
    ∧ (segmentOf (segged .pcm scenario).control (segged .pcm scenario).metadata).ok = true
    ∧ (segged .pcm scenario).busy = false ∧ (segged .pcm scenario).sbRacing = false := by decide

/-- ExportMNotReadyWhenRefused: the reset metadata, which SEG refuses with LOOPLEN (R222). -/
theorem witness_refused :
    State.reset.busy = false ∧ State.reset.sbRacing = false
    ∧ (segmentOf State.reset.control State.reset.metadata).ok = false := by decide

/-- R70: W5's header and word as the output port carries them, `out_kind` 1 and then 0. -/
theorem test_outTransfers :
    (outTransfers { State.reset with stream := ⟨0#32, 0#2, 1#3,
        [⟨.hdr, 1#2, 0x81000080#32, false⟩, ⟨.data, 0#2, 0xDDCCBBAA#32, false⟩]⟩ }).map
      (fun p => (p.outKind, p.outRg)) = [(1#1, 1#2), (0#1, 0#2)] := by decide

/-- OutputPortCarriesTheRecords: a ready state, a packer at lane 3 and one at lane 0. -/
theorem witness_outputPort :
    (segged .pcm scenario).seg.segv = true ∧ (segged .pcm scenario).seg.ok = true
    ∧ pending.bcnt = 3#2 ∧ State.reset.stream.bcnt ≠ 3#2 := by decide

/-- HeaderWordLayout: the greatest count. -/
theorem witness_header : (0x00FFFFFF#32 : Word).toNat < 2 ^ 24 := by decide

/-- PAD, HDR and REGION: a state that is ready, states that are not, and words that are no region command. -/
theorem witness_ready :
    ((segged .mulaw fourSamples).seg.segv = true ∧ (segged .mulaw fourSamples).seg.ok = true
      ∧ (segged .mulaw fourSamples).stream.acc.toNat < 2 ^ (8 * (segged .mulaw fourSamples).stream.bcnt.toNat))
    ∧ ¬(State.reset.seg.segv = true ∧ State.reset.seg.ok = true)
    ∧ ¬((segged .pcm Metadata.reset).seg.segv = true ∧ (segged .pcm Metadata.reset).seg.ok = true)
    ∧ ((0xB3000000#32 : Word).extractLsb' 28 4 = 0xB#4 ∧ 0xB3000000#32 ∉ [0xB0000000#32, 0xB1000000#32, 0xB2000000#32])
    ∧ ((0xC3000000#32 : Word).extractLsb' 28 4 = 0xC#4 ∧ 0xC3000000#32 ∉ [0xC0000000#32, 0xC1000000#32, 0xC2000000#32])
    ∧ ((0xD0000001#32 : Word).extractLsb' 28 4 = 0xD#4
      ∧ 0xD0000001#32 ∉ [0xD0000000#32, 0xD1000000#32, 0xD2000000#32]) := by decide

/-- SampleReadIsLittleEndian: the last sample of the address space. -/
theorem witness_sampleRead :
    State.reset.sbRacing = false ∧ (0xFFFFFFFE#32 : Word).toNat + 2 * 0 + 1 < 2 ^ 32 := by decide

/-- EncodeOfDecode: a word that decodes. -/
theorem witness_decodes : decode 0x2007FFFF#32 5#32 = .illegal .nonzeroReservedBits
    ∧ decode 0x20070000#32 5#32 = .ok (.wreg 0x07#8 5#32) := by decide

/-- UnusedOperandIgnored. -/
theorem witness_unusedOperand :
    (0xE0000000#32 : Word).extractLsb' 28 4 ≠ 0x2#4 ∧ (0xE0000000#32 : Word).extractLsb' 28 4 ≠ 0x5#4
    ∧ (0xE0000000#32 : Word).extractLsb' 28 4 ≠ 0x6#4 := by decide

/-- A state whose port offers one command. -/
def offering (cmd dat : Word) : State := { State.reset with port := [.command cmd dat ⟨true, true⟩] }

/-- StepRunsTheDecodedCommand: a state with a command, and a table word that decodes. -/
theorem witness_step :
    (offering 0x70001234#32 0#32).port = [.command 0x70001234#32 0#32 ⟨true, true⟩]
    ∧ (offering 0x70001234#32 0#32).busy = false ∧ decode 0x70001234#32 0#32 = .ok (.pcm 0x1234#16)
    ∧ decodeTableWord 32 0xE0000000 = some .exportRun := by decide

/-- IllegalCommandOnlySetsIll: a pair that does not decode, and the ends of the undefined and read-only addresses. -/
theorem witness_illegal :
    ((offering 0xF0000000#32 0#32).port = [.command 0xF0000000#32 0#32 ⟨true, true⟩]
      ∧ (offering 0xF0000000#32 0#32).busy = false ∧ (offering 0xF0000000#32 0#32).sbRacing = false
      ∧ decode 0xF0000000#32 0#32 = .illegal .reservedOpcode)
    ∧ (0x08#8 ≤ 0x08#8 ∧ 0x08#8 ≤ 0xFF#8) ∧ (0x09#8 ≤ 0x09#8 ∧ 0x09#8 ≤ 0x0F#8) ∧ (0x09#8 ≤ 0x0F#8 ∧ 0x0F#8 ≤ 0x0F#8)
    ∧ 0x1F#8 ∈ [0x16#8, 0x17#8, 0x1B#8, 0x1F#8] ∧ 0x27#8 ≤ 0x27#8 ∧ 0x27#8 ≤ 0xFF#8 := by decide

/-- IdleAndBusyWait: no event, and a command while busy. -/
theorem witness_waits :
    State.reset.port = [] ∧ ({ offering 0#32 0#32 with busy := true } : State).busy = true
    ∧ ({ offering 0#32 0#32 with busy := true } : State).port = [.command 0#32 0#32 ⟨true, true⟩] := by decide

/-- ResetEventRestoresEverything, with the CORE busy. -/
theorem witness_resetEvent :
    ({ segged .mulaw scenario with port := [.reset], busy := true } : State).port = [.reset] := by decide

/-- HostWriteReadsBack: the last address. -/
theorem witness_hostWrite :
    ({ State.reset with port := [.writeSample 0xFFFFFFFF#32 0x12#8], sb := fourSampleBytes } : State).port
      = [.writeSample 0xFFFFFFFF#32 0x12#8]
    ∧ fourSampleBytes.wf = true := by decide

/-- A ready state whose port offers a command that never completes, and then a reset. -/
def abandoned : State :=
  { segged .pcm scenario with port := [.command 0xC1000000#32 0#32 ⟨true, false⟩, .reset] }

/-- AbandonedCommandDeliversAPrefix: the command would have emitted a record. -/
theorem witness_abandoned :
    abandoned.port = .command 0xC1000000#32 0#32 ⟨true, false⟩ :: .reset :: [] ∧ abandoned.busy = false
    ∧ ∃ u, runCommand 0xC1000000#32 0#32 { abandoned with port := .reset :: [], sbRacing := !true } = .next u
      ∧ u.stream.out = [⟨.hdr, 1#2, 0x81000080#32, false⟩] := by
  refine ⟨rfl, rfl, _, rfl, ?_⟩
  decide

/-- A state of the invariant with valid, exportable results, samples in the buffer, and a REGION command to run. -/
def working : State :=
  { segged .mulaw fourSamples with
    sb := fourSampleBytes
    stream := pending
    port := [.command 0xD0000000#32 0#32 ⟨true, true⟩] }

theorem witness_inv : working.Inv where
  bufferForm := by decide
  notRacing := rfl
  accBits := by decide
  derived := .inr (segment_computed ⟨.mulaw, false⟩ fourSamples (by decide))
  okValid := fun _ => rfl
  fresh := fun _ => rfl
  doneComputed := fun h => absurd h (by decide)
  records := fun r h => absurd h List.not_mem_nil
  responses := fun r h => absurd h List.not_mem_nil

/-- StepKeepsInv, OutputOnlyGrows, RegionReadsOnlyItsRange, RecordsPerCommandBounded: the state meets the invariant, is
ready, and has a next state. -/
theorem witness_working :
    working.seg.segv = true ∧ working.seg.ok = true ∧ (∃ t, step working = .next t)
    ∧ (∃ t, exec (.pad .attack) working = .next t) ∧ (∀ r, Instr.pad .attack ≠ .region r)
    ∧ Instr.pad .attack ≠ .exportRun := by
  refine ⟨by decide, by decide, ⟨_, rfl⟩, ⟨_, rfl⟩, (fun r h => nomatch h), by decide⟩

/-- RegionReadsOnlyItsRange: another buffer that agrees on the region's range and nowhere else. -/
theorem witness_otherBuffer :
    ∀ a, (working.seg.region .attack).rb.toNat ≤ a → a < (working.seg.region .attack).re.toNat →
      Memory.read (fourSampleBytes ++ [(8, 0x77#8)]) a = working.sb.read a := by
  have h : (working.seg.region .attack).re.toNat = 8 := by decide
  rw [h]
  intro a _ ha
  interval_cases a <;> decide

/-- FailingCommandChangesNothingElse, StickyBitsSetAndCleared, CommandsNeverWriteTheBuffer and
RegisterGroupsWrittenOnlyBy: a command that fails, and one that does not. -/
theorem witness_failing :
    (∃ t r, exec (.hdr .attack) State.reset = .next t ∧ t.rsps = State.reset.rsps ++ [r] ∧ r.err = true)
    ∧ (∃ t r, exec (.rreg 0xFF#8) State.reset = .next t ∧ t.rsps = State.reset.rsps ++ [r] ∧ r.err = true)
    ∧ (∃ t r, exec .nop State.reset = .next t ∧ t.rsps = State.reset.rsps ++ [r] ∧ r.err = false)
    ∧ Instr.hdr .attack ≠ .seg ∧ Instr.hdr .attack ≠ .exportRun ∧ (∀ ra dat, Instr.nop ≠ .wreg ra dat) := by
  refine ⟨⟨_, _, rfl, rfl, rfl⟩, ⟨_, _, rfl, rfl, rfl⟩, ⟨_, _, rfl, rfl, rfl⟩, by decide, by decide,
    (fun ra dat h => nomatch h)⟩

end Sys2Proof.Tests
end

section
/-! PROOFS of 10_state.md: a register of the map read and written at its address, and the bits of STATUS (R24). -/

namespace Sys2Proof.Machine

/-! ### Registers at their addresses -/

/-- RREG at the address of a register answers that register (R103). -/
theorem execRreg_addr (r : RegName) (s : State) : execRreg r.addr s = .next (complete (readReg s r) s) := by
  unfold execRreg
  rw [ofAddr_addr]

/-- WREG at the address of a read-only register is ILLEGAL (R102). -/
theorem execWreg_addr_ro (r : RegName) (hr : r.access = .ro) (v : Word) (s : State) :
    execWreg r.addr v s = .next (raiseError .illegal s) := by
  unfold execWreg
  rw [ofAddr_addr]
  simp only [hr]

/-! ### The bits of STATUS -/

/-- A bit of a one-bit field at position `k`. -/
theorem flag_getLsbD (b : Bool) (k i : Nat) (hi : i < 32) : (bitAt b k).getLsbD i = (decide (i = k) && b) := by
  have at_iff : i = k ↔ ¬i < k ∧ i - k < 1 := by omega
  simp only [bitAt_getLsbD, hi, at_iff, Bool.decide_and, decide_not, decide_true, Bool.true_and, Bool.and_assoc]

/-- A bit of a wider field at position `k`. -/
theorem field_getLsbD {w : Nat} (x : BitVec w) (k i : Nat) (hi : i < 32) :
    (x.setWidth 32 <<< k : Word).getLsbD i = (decide (k ≤ i) && x.getLsbD (i - k)) := by
  have hk : i - k < 32 := by omega
  rw [BitVec.getLsbD_shiftLeft, BitVec.getLsbD_setWidth]
  simp only [hi, hk, decide_true, Bool.true_and, ← decide_not, Nat.not_lt]

/-- The layout of STATUS (R24): each field at its position, and nothing else. -/
theorem statusWord_getElem (s : State) (i : Nat) (hi : i < 32) :
    (statusWord s)[i] =
      (decide (i = 0) && s.seg.segv || decide (i = 1) && s.seg.ok || decide (i = 2) && s.sticky.done
        || decide (i = 3) && Mode.bit s.seg.smode || decide (i = 4) && s.sticky.ill
        || decide (i = 5) && s.sticky.nrdy || decide (i = 8) && s.seg.eOrder || decide (i = 9) && s.seg.eMalf
        || decide (i = 10) && s.seg.eLen || decide (i = 11) && s.seg.eLooplen || decide (i = 12) && s.seg.eEndloop
        || decide (16 ≤ i) && s.stream.bcnt.getLsbD (i - 16) || decide (20 ≤ i) && s.stream.lcnt.getLsbD (i - 20)
        || decide (i = 24) && residualBit s.stream) := by
  rw [← BitVec.getLsbD_eq_getElem hi, statusWord_getLsbD]
  simp only [flag_getLsbD _ _ i hi, field_getLsbD _ _ i hi]

/-- The SMODE bit says whether the latched mode is µ-law (R23, R24). -/
theorem modeBit_eq_decide (m : Mode) : Mode.bit m = decide (m = .mulaw) := by
  cases m <;> rfl

/-- The RESID bit says whether a word is partly filled (R40). -/
theorem residualBit_eq_decide (st : PackedStream) : residualBit st = decide (st.bcnt ≠ 0#2) :=
  Bool.eq_iff_iff.mpr (by simp [residualBit])

theorem statusWord_segFlags (s : State) :
    (statusWord s).getLsbD 0 = s.seg.segv ∧ (statusWord s).getLsbD 1 = s.seg.ok
    ∧ (statusWord s).getLsbD 3 = decide (s.seg.smode = .mulaw) := by
  simp [statusWord_getElem, modeBit_eq_decide]

theorem statusWord_stickyFlags (s : State) :
    (statusWord s).getLsbD 2 = s.sticky.done ∧ (statusWord s).getLsbD 4 = s.sticky.ill
    ∧ (statusWord s).getLsbD 5 = s.sticky.nrdy := by
  simp [statusWord_getElem]

theorem statusWord_validationFlags (s : State) :
    (statusWord s).getLsbD 8 = s.seg.eOrder ∧ (statusWord s).getLsbD 9 = s.seg.eMalf
    ∧ (statusWord s).getLsbD 10 = s.seg.eLen ∧ (statusWord s).getLsbD 11 = s.seg.eLooplen
    ∧ (statusWord s).getLsbD 12 = s.seg.eEndloop := by
  simp [statusWord_getElem]

theorem statusWord_bcnt (s : State) : (statusWord s).extractLsb' 16 2 = s.stream.bcnt := by
  refine BitVec.eq_of_getElem_eq fun i hi => ?_
  interval_cases i <;> simp [statusWord_getElem]

theorem statusWord_lcnt (s : State) : (statusWord s).extractLsb' 20 3 = s.stream.lcnt := by
  refine BitVec.eq_of_getElem_eq fun i hi => ?_
  interval_cases i <;> simp [statusWord_getElem]

theorem statusWord_resid (s : State) : (statusWord s).getLsbD 24 = decide (s.stream.bcnt ≠ 0#2) := by
  simp [statusWord_getElem, residualBit_eq_decide]

/-- The bits of STATUS that R24 reserves. -/
def statusReserved : List Nat := [6, 7, 13, 14, 15, 18, 19, 23, 25, 26, 27, 28, 29, 30, 31]

/-- No flag stands at a reserved bit, and BCNT and LCNT are too narrow to reach one. -/
theorem statusWord_reserved (s : State) : ∀ k ∈ statusReserved, (statusWord s).getLsbD k = false := by
  simp [statusReserved, statusWord_getElem]

/-! ### STATUS -/

/-- Settles O5: RREG finds STATUS at its address and answers `statusWord`, whose bits are read off group by group; STATUS
is read-only, so WREG refuses it. -/
theorem statusWordBits : Obligations.StatusWordBits := by
  intro s
  refine ⟨⟨statusWord s, execRreg_addr .status s, ?_⟩, fun v => execWreg_addr_ro .status rfl v s⟩
  obtain ⟨hsegv, hok, hsmode⟩ := statusWord_segFlags s
  obtain ⟨hdone, hill, hnrdy⟩ := statusWord_stickyFlags s
  obtain ⟨horder, hmalf, hlen, hlooplen, hendloop⟩ := statusWord_validationFlags s
  exact ⟨hsegv, hok, hdone, hsmode, hill, hnrdy, horder, hmalf, hlen, hlooplen, hendloop,
    statusWord_bcnt s, statusWord_lcnt s, statusWord_resid s, statusWord_reserved s⟩

end Sys2Proof.Machine
end

section
/-! PROOFS of 20_memory.md: what a sample read returns (R53). -/

namespace Sys2Proof.Machine

/-- The address of a byte at an offset from a region's start, where it does not wrap (R54). -/
theorem offset_toNat (rb : Word) (k : Nat) (h : rb.toNat + k < 2 ^ 32) :
    (rb + BitVec.ofNat 32 k).toNat = rb.toNat + k := by
  have hk : k < 2 ^ 32 := by omega
  rw [BitVec.toNat_add, BitVec.toNat_ofNat, Nat.mod_eq_of_lt hk, Nat.mod_eq_of_lt h]

/-- Reading at an offset that does not wrap, while the buffer is stable (R52, R54). -/
theorem memRead_offset (s : State) (rb : Word) (k : Nat) (hs : s.sbRacing = false) (h : rb.toNat + k < 2 ^ 32) :
    memRead s (rb + BitVec.ofNat 32 k) = s.sb.read (rb.toNat + k) := by
  rw [memRead_stable s _ hs, offset_toNat rb k h]

/-- The number that a high byte and a low byte spell (R53). -/
theorem bytePair_toNat (hi lo : Byte) : (hi ++ lo : Half).toNat = lo.toNat + 256 * hi.toNat := by
  have hlo : lo.toNat < 2 ^ 8 := lo.isLt
  rw [BitVec.toNat_append, ← Nat.shiftLeft_add_eq_or_of_lt hlo, Nat.shiftLeft_eq]
  omega

/-- `sint16` of R53: a sample's signed value, by its unsigned one. -/
theorem half_toInt (x : Half) : x.toInt = if 2 ^ 15 ≤ x.toNat then (x.toNat : Int) - 65536 else x.toNat := by
  rw [BitVec.toInt_eq_toNat_cond]
  split <;> split <;> omega

/-- The two bytes of a sample whose address does not wrap, the high one first, as R53 joins them. -/
theorem readSample_eq (s : State) (rb : Word) (i : Nat) (hs : s.sbRacing = false)
    (h : rb.toNat + 2 * i + 1 < 2 ^ 32) :
    readSample s rb i = s.sb.read (rb.toNat + 2 * i + 1) ++ s.sb.read (rb.toNat + 2 * i) := by
  rw [readSample, memRead_offset s rb (2 * i + 1) hs h, memRead_offset s rb (2 * i) hs (by omega), Nat.add_assoc]

/-- Settles O28: the two bytes lie at addresses that do not wrap, they spell the number with the low byte first, and the
signed value is read off that number. -/
theorem sampleReadIsLittleEndian : Obligations.SampleReadIsLittleEndian := by
  intro s rb i hs h
  have spelled := bytePair_toNat (s.sb.read (rb.toNat + 2 * i + 1)) (s.sb.read (rb.toNat + 2 * i))
  rw [← readSample_eq s rb i hs h] at spelled
  exact ⟨spelled, spelled ▸ half_toInt (readSample s rb i)⟩

end Sys2Proof.Machine
end

section
/-! PROOFS of 30_encoding.md: which part of the decoder reads the operand (R79). -/

namespace Sys2Proof

/-- The command of a word takes nothing from the operand, unless the opcode is that of WREG, PADQ or WCQ (R79). -/
theorem instrOf_ignores_operand (cmd dat dat' : Word)
    (hwreg : opField cmd ≠ 0x2#4) (hpadq : opField cmd ≠ 0x5#4) (hwcq : opField cmd ≠ 0x6#4) :
    instrOf cmd dat = instrOf cmd dat' := by
  unfold instrOf
  split
  case h_3 hop => exact absurd (BitVec.eq_of_toNat_eq hop) hwreg
  case h_6 hop => exact absurd (BitVec.eq_of_toNat_eq hop) hpadq
  case h_7 hop => exact absurd (BitVec.eq_of_toNat_eq hop) hwcq
  all_goals rfl

/-- The decoder reads the operand only to build the command: format, must-be-zero bits and region come from the command
word alone (R77). -/
theorem decode_congr_instrOf (cmd dat dat' : Word) (h : instrOf cmd dat = instrOf cmd dat') :
    decode cmd dat = decode cmd dat' := by
  unfold decode
  rw [h]

/-- Settles O37: the operand reaches the decoder's answer only through `instrOf`, which uses it in the arms of WREG, PADQ
and WCQ only. -/
theorem unusedOperandIgnored : Obligations.UnusedOperandIgnored := by
  intro cmd dat dat' hwreg hpadq hwcq
  exact decode_congr_instrOf cmd dat dat' (instrOf_ignores_operand cmd dat dat' hwreg hpadq hwcq)

end Sys2Proof
end

section
/-! PROOFS of 40_control.md: NOP, CLR, WREG and RREG, each with the words that decode to it (R100 to R103). -/

namespace Sys2Proof.Machine

/-! ### The words of one opcode -/

/-- An N-format opcode has one command word, which decodes to its row's command; every other word of it is ILLEGAL
(R74, R77). -/
theorem decode_N_row (op : BitVec 4) (hf : formatOf op = some .N) (i : Word → Instr)
    (hi : ∀ dat, instrOf (opBase op) dat = some (i dat)) :
    (∀ dat, decode (opBase op) dat = .ok (i dat))
    ∧ ∀ cmd dat, opField cmd = op → cmd ≠ opBase op → ∃ why, decode cmd dat = .illegal why := by
  have hop : opField (opBase op) = op := opField_of_mask (opBase op) .N op BitVec.and_allOnes
  exact ⟨fun dat => (decode_by_mask op .N hf (opBase op) dat (i dat) hop (hi dat)).1 BitVec.and_allOnes,
    fun cmd dat => decode_N_illegal op hf cmd dat⟩

theorem instrOf_wreg (cmd dat : Word) (h : opField cmd = 0x2#4) : instrOf cmd dat = some (.wreg (raField cmd) dat) := by
  unfold instrOf
  rw [h]
  rfl

theorem instrOf_rreg (cmd dat : Word) (h : opField cmd = 0x3#4) : instrOf cmd dat = some (.rreg (raField cmd)) := by
  unfold instrOf
  rw [h]
  rfl

/-! ### NOP and CLR -/

/-- Settles O1: NOP is its response alone, and opcode 0 has one command word. -/
theorem nopOnlyResponds : Obligations.NopOnlyResponds :=
  ⟨fun _ => rfl, decode_N_row 0x0#4 rfl (fun _ => .nop) fun _ => rfl⟩

/-- Settles O2: CLR is `clearEffects` and its response, and opcode 1 has one command word. -/
theorem clrClearsPackerAndSticky : Obligations.ClrClearsPackerAndSticky :=
  ⟨fun _ => rfl, decode_N_row 0x1#4 rfl (fun _ => .clr) fun _ => rfl⟩

/-! ### Addresses that WREG may write -/

/-- The addresses of CTRL and the six metadata registers (R41). -/
abbrev writableAddrs : List RegAddr := [0x00#8, 0x02#8, 0x03#8, 0x04#8, 0x05#8, 0x06#8, 0x07#8]

/-- These are the addresses of the RW registers. -/
theorem mem_writableAddrs_iff (ra : RegAddr) : ra ∈ writableAddrs ↔ ∃ r : RegName, r.access = .rw ∧ r.addr = ra := by
  constructor
  · have named : ∀ a ∈ writableAddrs, ∃ r ∈ RegName.all, r.access = .rw ∧ r.addr = a := by decide
    intro h
    obtain ⟨r, -, hr⟩ := named ra h
    exact ⟨r, hr⟩
  · rintro ⟨r, hr, rfl⟩
    cases r with
    | ctrl | startOff | endOff | sloop | eloop | dur | ldur => decide
    | _ => cases hr

/-- STATUS and all addresses above LDUR are not among them. -/
theorem not_mem_writableAddrs (ra : RegAddr) (h : ra = 0x01#8 ∨ 0x07#8 < ra) : ra ∉ writableAddrs := by
  have low : ∀ a ∈ writableAddrs, ¬(a = 0x01#8 ∨ 0x07#8 < a) := by decide
  exact fun hm => low ra hm h

/-! ### WREG -/

/-- WREG at the address of an RW register writes it and invalidates the segmentation (R102). -/
theorem execWreg_addr_rw (r : RegName) (hr : r.access = .rw) (v : Word) (s : State) :
    execWreg r.addr v s = .next (complete 0#32 (invalidateSeg (writeReg v s r))) := by
  unfold execWreg
  rw [ofAddr_addr]
  simp only [hr]

/-- WREG at any other address is ILLEGAL (R102). -/
theorem execWreg_refused (ra : RegAddr) (h : ra ∉ writableAddrs) (v : Word) (s : State) :
    execWreg ra v s = .next (raiseError .illegal s) := by
  rcases execWreg_cases ra v s with ⟨-, hillegal⟩ | ⟨r, hra, hrw, -⟩
  · exact hillegal
  · exact absurd ((mem_writableAddrs_iff ra).mpr ⟨r, hrw, addr_of_ofAddr ra r hra⟩) h

/-- Of a word written to CTRL, MODE and FORCE read back (R23). -/
theorem ctrlWord_ctrlOfWord (v : Word) : ctrlWord (ctrlOfWord v) = v &&& 0x00000003#32 := by
  have hmode : Mode.bit (ctrlOfWord v).mode = v.getLsbD 0 := by
    show Mode.bit (Mode.ofBit (v.getLsbD 0)) = v.getLsbD 0
    cases v.getLsbD 0 <;> rfl
  have hforce : (ctrlOfWord v).force = v.getLsbD 1 := rfl
  unfold ctrlWord
  rw [hmode, hforce]
  apply BitVec.eq_of_getLsbD_eq
  intro i hi
  rw [BitVec.getLsbD_or, flag_getLsbD _ 0 i hi, flag_getLsbD _ 1 i hi, BitVec.getLsbD_and]
  interval_cases i <;> simp

/-- While `SEGV = 0`, HDR_r reads 0 (R33). -/
theorem readReg_hdr_of_stale (s : State) (r : Region) (h : s.seg.segv = false) : readReg s (.hdr r) = 0#32 := by
  simp [readReg, headerView, SegResults.ready, h]

/-- While `SEGV = 0`, RREG at the address of an HDR_r answers 0 (R33, R103). -/
theorem execRreg_hdr_of_stale (s : State) (h : s.seg.segv = false) (ha : RegAddr)
    (hmem : ha ∈ [0x24#8, 0x25#8, 0x26#8]) : execRreg ha s = .next (complete 0#32 s) := by
  have named : ∀ a ∈ [0x24#8, 0x25#8, 0x26#8], ∃ r ∈ allRegions, (RegName.hdr r).addr = a := by decide
  obtain ⟨r, -, rfl⟩ := named ha hmem
  rw [execRreg_addr, readReg_hdr_of_stale s r h]

/-- Settles O3: WREG writes where a register is RW and is ILLEGAL elsewhere; a write leaves SEGV at 0, so every HDR_r
reads 0 after it, and of 0xFFFFFFFC CTRL keeps neither bit; the words of opcode 2 are those of the G format. -/
theorem wregWritesAndInvalidates : Obligations.WregWritesAndInvalidates := by
  refine ⟨fun s dat => ?_, fun s ra dat hra => ?_, fun cmd dat hop => ?_⟩
  · exact ⟨execWreg_addr_rw .ctrl rfl dat s, execWreg_addr_rw .startOff rfl dat s, execWreg_addr_rw .endOff rfl dat s,
      execWreg_addr_rw .sloop rfl dat s, execWreg_addr_rw .eloop rfl dat s, execWreg_addr_rw .dur rfl dat s,
      execWreg_addr_rw .ldur rfl dat s, fun ra hra => execWreg_refused ra (not_mem_writableAddrs ra hra) dat s⟩
  · obtain ⟨r, hrw, rfl⟩ := (mem_writableAddrs_iff ra).mp hra
    refine ⟨_, execWreg_addr_rw r hrw dat s, execRreg_hdr_of_stale _ rfl, fun hctrl hdat => ?_⟩
    obtain rfl : r = .ctrl := Option.some.inj (by rw [← ofAddr_addr r, hctrl]; rfl)
    have hzero : ctrlWord (ctrlOfWord dat) = 0#32 := by rw [ctrlWord_ctrlOfWord, hdat]; rfl
    rw [← hzero]
    exact execRreg_addr .ctrl _
  · exact decode_by_mask 0x2#4 .G rfl cmd dat _ hop (instrOf_wreg cmd dat hop)

/-! ### RREG -/

/-- CTRL as a number: MODE counts 1 and FORCE 2 (R23). -/
theorem ctrlWord_eq (c : Control) :
    ctrlWord c = BitVec.ofNat 32 ((if c.mode = .mulaw then 1 else 0) + (if c.force then 2 else 0)) := by
  obtain ⟨mode, force⟩ := c
  cases mode <;> cases force <;> rfl

/-- `HDR_r` by the two bits that gate it (R33). -/
theorem headerView_eq (g : SegResults) (r : Region) :
    headerView g r = if g.segv = true ∧ g.ok = true then headerWord (g.region r).n g.smode else 0#32 := by
  simp only [headerView, ready_iff]

/-- The register map lists every register at its address with the value it reads as (R41). -/
theorem registerMap_eq (s : State) : registerMap s = RegName.all.map fun r => (r.addr, readReg s r) := by
  simp [registerMap, RegName.all, RegName.addr, readReg, ctrlWord_eq, headerView_eq]

theorem RegName.mem_all (r : RegName) : r ∈ RegName.all := List.mem_of_find?_eq_some (ofAddr_addr r)

/-- RREG at an address without a register is ILLEGAL (R103). -/
theorem execRreg_refused (ra : RegAddr) (h : ∀ r : RegName, r.addr ≠ ra) (s : State) :
    execRreg ra s = .next (raiseError .illegal s) := by
  rcases execRreg_cases ra s with ⟨-, hillegal⟩ | ⟨r, hra, -⟩
  · exact hillegal
  · exact absurd (addr_of_ofAddr ra r hra) (h r)

/-- Settles O4: an entry of the register map is a register with its address and value, and an address without an entry is
no register's; the words of opcode 3 are those of the G format. -/
theorem rregReadsTheRegisterMap : Obligations.RregReadsTheRegisterMap := by
  refine ⟨fun s p hp => ?_, fun s ra hra => ?_, fun cmd dat hop => ?_⟩
  · rw [registerMap_eq] at hp
    obtain ⟨r, -, rfl⟩ := List.mem_map.mp hp
    exact execRreg_addr r s
  · rw [registerMap_eq] at hra
    exact execRreg_refused ra (fun r => hra _ (List.mem_map_of_mem r.mem_all)) s
  · exact decode_by_mask 0x3#4 .G rfl cmd dat _ hop (instrOf_rreg cmd dat hop)

end Sys2Proof.Machine
end

section
/-! PROOFS of 41_segmenter.md: the checks of SEG and its policy (R113 to R117), the pad count (R110), and the queries
PADQ and WCQ (R118, R119). -/

namespace Sys2Proof.Machine

/-! ### The checks of SEG, by the metadata -/

/-- The four offsets stand in the order that R113 asks for. -/
def OffsetsOrdered (m : Metadata) : Prop :=
  m.startOff.toNat ≤ m.sloop.toNat ∧ m.sloop.toNat ≤ m.eloop.toNat ∧ m.eloop.toNat ≤ m.endOff.toNat

theorem offsetsOrdered_iff (m : Metadata) : OffsetsOrdered m ↔ orderViolated m = false :=
  (orderViolated_eq_false m).symm

/-- Where the order holds, each region's length is the distance between its two offsets: START cancels (R112). -/
theorem rangeLength_of_ordered (m : Metadata) (h : orderViolated m = false) :
    rangeLength m .attack = m.sloop.toNat - m.startOff.toNat
    ∧ rangeLength m .loop = m.eloop.toNat - m.sloop.toNat
    ∧ rangeLength m .decay = m.endOff.toNat - m.eloop.toNat := by
  obtain ⟨hstart, hloop, -⟩ := (orderViolated_eq_false m).mp h
  exact ⟨Nat.sub_zero _, Nat.sub_sub_sub_cancel_right hstart, Nat.sub_sub_sub_cancel_right (hstart.trans hloop)⟩

/-- The ORDER bit is set exactly where the order fails (R113). -/
theorem orderViolated_eq_true (m : Metadata) : orderViolated m = true ↔ ¬OffsetsOrdered m := by
  rw [offsetsOrdered_iff, Bool.not_eq_false]

/-- MALFORMED in the offsets themselves (R114). -/
theorem malformedBit_iff_offsets (m : Metadata) :
    malformedBit m = true ↔ OffsetsOrdered m
      ∧ ((m.sloop.toNat - m.startOff.toNat) % 2 = 1 ∨ (m.eloop.toNat - m.sloop.toNat) % 2 = 1
        ∨ (m.endOff.toNat - m.eloop.toNat) % 2 = 1) := by
  rw [malformedBit_eq_true, offsetsOrdered_iff]
  refine and_congr_right fun ordered => ?_
  obtain ⟨hattack, hloop, hdecay⟩ := rangeLength_of_ordered m ordered
  rw [hattack, hloop, hdecay]

/-- LENGTH in the offsets themselves (R114). -/
theorem lengthBit_iff_offsets (m : Metadata) :
    lengthBit m = true ↔ OffsetsOrdered m
      ∧ (2 ^ 24 ≤ (m.sloop.toNat - m.startOff.toNat) / 2 ∨ 2 ^ 24 ≤ (m.eloop.toNat - m.sloop.toNat) / 2
        ∨ 2 ^ 24 ≤ (m.endOff.toNat - m.eloop.toNat) / 2) := by
  rw [lengthBit_eq_true, offsetsOrdered_iff]
  refine and_congr_right fun ordered => ?_
  obtain ⟨hattack, hloop, hdecay⟩ := rangeLength_of_ordered m ordered
  rw [sampleCount, sampleCount, sampleCount, hattack, hloop, hdecay]

/-- Settles O8: SEG stores the bits of `segmentOf`, and each bit is read off the metadata; OK is the policy over the
other five. -/
theorem segChecksAndPolicy : Obligations.SegChecksAndPolicy := by
  intro s
  exact ⟨respondSeg (segEffects s), rfl, orderViolated_eq_true s.metadata, malformedBit_iff_offsets s.metadata,
    lengthBit_iff_offsets s.metadata, loopLenBit_eq_true s.metadata, endLoopBit_eq_true s.metadata,
    (okBit_eq_true s.control s.metadata).trans (and_assoc.trans (and_congr_right fun _ => and_assoc))⟩

/-! ### The pad count -/

theorem padCount_eq (n : Nat) : padCount n = (128 - n % 128) % 128 := rfl

theorem padCount_eq_zero_iff (n : Nat) : padCount n = 0 ↔ n % 128 = 0 := by
  rw [padCount_eq]
  omega

/-- The pad count is the two's complement of the low seven bits of the count (R110). -/
theorem padCount_eq_neg_low7 (n : Nat) : padCount n = (~~~(BitVec.ofNat 7 n) + 1#7).toNat := by
  rw [← BitVec.neg_eq_not_add, BitVec.toNat_neg, BitVec.toNat_ofNat, padCount_eq]

/-- Settles O13: the bound and the alignment are the laws of `padCount`, the seven-bit form is a negation, and the
examples are evaluated. -/
theorem padCountLaws : Obligations.PadCountLaws :=
  ⟨fun n => ⟨padCount_eq n, Nat.le_of_lt_succ (padCount_lt n), add_padCount_mod n, padCount_eq_zero_iff n,
    padCount_eq_neg_low7 n⟩, rfl, rfl, rfl, rfl, rfl⟩

/-! ### PADQ and WCQ -/

/-- Settles O11: PADQ is its response alone, and opcode 5 has one command word. -/
theorem padqAnswersPadCount : Obligations.PadqAnswersPadCount :=
  ⟨fun _ _ => rfl, decode_N_row 0x5#4 rfl .padq fun _ => rfl⟩

theorem bytesPerSample_eq_ite (m : Mode) : bytesPerSample m = if m = .mulaw then 1 else 2 := by
  cases m <;> rfl

/-- No operand is too large: the word count of a 32-bit count fits a response word (R119). -/
theorem wordCount_operand_lt (n : Word) (m : Mode) : wordCount n.toNat m < 2 ^ 32 := by
  have hn : n.toNat < 2 ^ 32 := n.isLt
  have hpad := padCount_lt n.toNat
  have hbps : (n.toNat + padCount n.toNat) * bytesPerSample m ≤ (n.toNat + padCount n.toNat) * 2 :=
    Nat.mul_le_mul_left _ (bytesPerSample_le m)
  rw [wordCount_eq]
  omega

/-- Settles O12: WCQ answers `wordCount` in the live mode, which the response word holds unwrapped; opcode 6 has one
command word. -/
theorem wcqAnswersWordCount : Obligations.WcqAnswersWordCount := by
  refine ⟨fun s n => ⟨BitVec.ofNat 32 (wordCount n.toNat s.control.mode), rfl, ?_⟩,
    decode_N_row 0x6#4 rfl .wcq fun _ => rfl⟩
  rw [BitVec.toNat_ofNat, Nat.mod_eq_of_lt (wordCount_operand_lt n s.control.mode), wordCount, padCount_eq,
    bytesPerSample_eq_ite]

end Sys2Proof.Machine
end

section
/-! PROOFS of 42_encoder.md: the tier table of the µ-law rule by input magnitude (R130), and PCM, MULAW and ENCQ, each
with the words that decode to it (R133 to R135). -/

namespace Sys2Proof.Machine

/-! ### The tier table -/

/-- The tiers are the binades of the magnitude: `2 ^ (k + 7)` up to `2 ^ (k + 8)` is tier `k` and no other. -/
theorem tierNo_eq_of_binade (mag k : Nat) (h : 128 ≤ mag) (h' : mag < 32768)
    (hlow : 2 ^ (k + 7) ≤ mag) (hhigh : mag < 2 ^ (k + 8)) : tierNo mag = k := by
  obtain ⟨low, high⟩ := tierNo_range mag h h'
  have below : tierNo mag + 7 < k + 8 := (Nat.pow_lt_pow_iff_right (by decide)).mp (low.trans_lt hhigh)
  have above : k + 7 < tierNo mag + 8 := (Nat.pow_lt_pow_iff_right (by decide)).mp (hlow.trans_lt high)
  omega

/-- The µ-law rule with its table lookup replaced by the tier's number (R130). -/
theorem mulawByte_eq_of_tierNo (x : Half) (k : Nat) (hk : tierNo (mulawMag x.toInt) = k) :
    mulawByte x = mulawSign x.toInt ||| BitVec.ofNat 8 (k * 16)
      ||| BitVec.ofNat 8 ((mulawMag x.toInt >>> (k + 3)) &&& 0x0F) := by
  obtain ⟨hcode, hshift⟩ := tierOf_code_shift (mulawMag x.toInt)
  rw [mulawByte, hcode, hshift, hk]

/-- The rows of the tier table as (code, shift, least and greatest input magnitude) (R130). -/
abbrev tierRows : List (Byte × Nat × Nat × Nat) :=
  [(0x70#8, 10, 16256, 32768), (0x60#8, 9, 8064, 16255), (0x50#8, 8, 3968, 8063), (0x40#8, 7, 1920, 3967),
   (0x30#8, 6, 896, 1919), (0x20#8, 5, 384, 895), (0x10#8, 4, 128, 383), (0x00#8, 3, 0, 127)]

/-- A row with the number `k` has the code and the shift of tier `k`, and bias and clamp take both ends of its input
range into the binade of that tier. -/
theorem tierRows_binade : ∀ row ∈ tierRows, ∃ k < 8,
    row.1 = BitVec.ofNat 8 (k * 16) ∧ row.2.1 = k + 3
    ∧ 2 ^ (k + 7) ≤ min (row.2.2.1 + 128) 0x7FFF ∧ min (row.2.2.2 + 128) 0x7FFF < 2 ^ (k + 8) := by
  decide

/-- Settles O15: bias and clamp are monotone, so a magnitude between the ends of a row falls into the binade of that
row's tier, which has the row's code and shift. -/
theorem mulawTierTable : Obligations.MulawTierTable := by
  refine ⟨fun x code shift lo hi hrow hlo hhi => ?_, natAbs_toInt_le⟩
  obtain ⟨k, -, rfl, rfl, hbottom, htop⟩ := tierRows_binade _ hrow
  have bias_clamp_mono : ∀ {a b : Nat}, a ≤ b → min (a + 128) 0x7FFF ≤ min (b + 128) 0x7FFF :=
    fun hab => min_le_min_right _ (Nat.add_le_add_right hab 128)
  have tier : tierNo (min (x.toInt.natAbs + 128) 0x7FFF) = k :=
    tierNo_eq_of_binade _ k (by omega) (by omega) (hbottom.trans (bias_clamp_mono hlo))
      ((bias_clamp_mono hhi).trans_lt htop)
  exact mulawByte_eq_of_tierNo x k tier

/-! ### PCM, MULAW and ENCQ -/

theorem instrOf_pcm (cmd dat : Word) (h : opField cmd = 0x7#4) : instrOf cmd dat = some (.pcm (imm16Field cmd)) := by
  rw [instrOf, h]
  rfl

theorem instrOf_mulaw (cmd dat : Word) (h : opField cmd = 0x8#4) :
    instrOf cmd dat = some (.mulaw (imm16Field cmd)) := by
  rw [instrOf, h]
  rfl

theorem instrOf_encq (cmd dat : Word) (h : opField cmd = 0x9#4) : instrOf cmd dat = some (.encq (imm16Field cmd)) := by
  rw [instrOf, h]
  rfl

/-- Settles O18: PCM is its two pushes, the low byte's first, and its response; the words of opcode 7 are those of the S
format. -/
theorem pcmPushesLowThenHigh : Obligations.PcmPushesLowThenHigh :=
  ⟨fun _ _ => rfl, fun cmd dat hop => decode_by_mask 0x7#4 .S rfl cmd dat _ hop (instrOf_pcm cmd dat hop)⟩

/-- Settles O19: MULAW is the push of the code and its response; the words of opcode 8 are those of the S format. -/
theorem mulawPushesTheCode : Obligations.MulawPushesTheCode :=
  ⟨fun _ _ => rfl, fun cmd dat hop => decode_by_mask 0x8#4 .S rfl cmd dat _ hop (instrOf_mulaw cmd dat hop)⟩

/-- Settles O20: ENCQ is its response alone, which carries the code; the words of opcode 9 are those of the S format. -/
theorem encqAnswersTheCode : Obligations.EncqAnswersTheCode :=
  ⟨fun _ _ => rfl, fun cmd dat hop => decode_by_mask 0x9#4 .S rfl cmd dat _ hop (instrOf_encq cmd dat hop)⟩

end Sys2Proof.Machine
end

section
/-! PROOFS of 43_packer.md: the packer's commands PUSHB, PAD and HDR (R154, R155, R157), each with the words that decode
to it, and four PUSHB commands run as steps of the machine (R151). -/

namespace Sys2Proof.Machine

/-! ### The words of an R-format opcode -/

/-- The command word of an R-format opcode for a region (R73, R74). -/
abbrev regionWord (op : BitVec 4) (r : Region) : Word := opBase op ||| r.bits.setWidth 32 <<< 24

/-- An RG value that names a region is that region's index. -/
theorem bits_of_ofBits (rg : BitVec 2) (r : Region) (h : Region.ofBits rg = some r) : r.bits = rg := by
  revert rg
  cases r <;> decide

/-- The R format masks out the field RG and nothing else (R74). -/
theorem and_not_maskOf_R (cmd : Word) : cmd &&& ~~~maskOf .R = (rgField cmd).setWidth 32 <<< 24 := by
  apply BitVec.eq_of_getLsbD_eq
  intro i hi
  simp only [maskOf, rgField, BitVec.getLsbD_and, BitVec.getLsbD_shiftLeft, BitVec.getLsbD_setWidth,
    BitVec.getLsbD_extractLsb']
  interval_cases i <;> simp

/-- A word that matches an R-format row and whose RG names a region is that region's word. -/
theorem eq_regionWord (op : BitVec 4) (cmd : Word) (r : Region) (hmask : cmd &&& maskOf .R = opBase op)
    (hrg : Region.ofBits (rgField cmd) = some r) : cmd = regionWord op r := by
  rw [regionWord, bits_of_ofBits (rgField cmd) r hrg, ← and_not_maskOf_R]
  exact word_of_mask cmd .R op hmask

/-- An R-format opcode has three command words, one for each region; every other word of it, RG = 3 among them, is
ILLEGAL (R74, R77). -/
theorem decode_R_row (op : BitVec 4) (hf : formatOf op = some .R) (i : Region → Instr)
    (hi : ∀ cmd dat, opField cmd = op → instrOf cmd dat = (Region.ofBits (rgField cmd)).map i) (dat : Word) :
    decode (regionWord op .attack) dat = .ok (i .attack) ∧ decode (regionWord op .loop) dat = .ok (i .loop)
    ∧ decode (regionWord op .decay) dat = .ok (i .decay)
    ∧ ∀ cmd : Word, opField cmd = op → cmd ∉ [regionWord op .attack, regionWord op .loop, regionWord op .decay] →
        ∃ why, decode cmd dat = .illegal why := by
  have named : ∀ r, decode (regionWord op r) dat = .ok (i r) := by
    intro r
    have hrow : instrOf (regionWord op r) dat = some (i r) := by
      rw [hi _ dat (opField_R op r), rgField_R, Option.map_some]
    exact (decode_by_mask op .R hf _ dat (i r) (opField_R op r) hrow).1 (mask_R op r)
  refine ⟨named .attack, named .loop, named .decay, fun cmd hop hne => ?_⟩
  refine (decode_ok_or_illegal cmd dat).resolve_left ?_
  rintro ⟨j, hj⟩
  obtain ⟨fmt, hfmt, hmask, hinstr⟩ := (decode_eq_ok_iff cmd dat j).mp hj
  rw [hop, hf] at hfmt
  obtain rfl := Option.some.inj hfmt
  rw [hi cmd dat hop] at hinstr
  obtain ⟨r, hrg, -⟩ := Option.map_eq_some_iff.mp hinstr
  rw [hop] at hmask
  have hword : cmd = regionWord op r := eq_regionWord op cmd r hmask hrg
  cases r <;> simp [hword] at hne

theorem instrOf_pushb (cmd dat : Word) (h : opField cmd = 0xA#4) :
    instrOf cmd dat = some (.pushb (imm8Field cmd)) := by
  rw [instrOf, h]
  rfl

theorem instrOf_pad (cmd dat : Word) (h : opField cmd = 0xB#4) :
    instrOf cmd dat = (Region.ofBits (rgField cmd)).map .pad := by
  rw [instrOf, h]
  rfl

theorem instrOf_hdr (cmd dat : Word) (h : opField cmd = 0xC#4) :
    instrOf cmd dat = (Region.ofBits (rgField cmd)).map .hdr := by
  rw [instrOf, h]
  rfl

/-! ### The readiness check, by its two flags -/

theorem whenReady_of_flags (s t : State) (hsegv : s.seg.segv = true) (hok : s.seg.ok = true) : whenReady s t = t :=
  whenReady_of_ready s t ((ready_iff s.seg).mpr ⟨hsegv, hok⟩)

/-- What NOTREADY changes (R203). -/
theorem whenReady_of_not_flags (s t : State) (h : ¬(s.seg.segv = true ∧ s.seg.ok = true)) :
    whenReady s t =
      { s with sticky := { s.sticky with nrdy := true }, rsps := s.rsps ++ [⟨0#32, true, 2#4⟩] } :=
  whenReady_of_not s t (mt (ready_iff s.seg).mp h)

/-! ### PUSHB -/

/-- PUSHB is the push of its byte and its response (R154). -/
theorem exec_pushb (b : Byte) (s : State) : exec (.pushb b) s = .next
    { s with stream := push b s.stream, rsps := s.rsps ++ [⟨0#32, false, 0#4⟩] } := rfl

/-- Settles O22: PUSHB is the push of its byte and its response; the words of opcode 0xA are those of the B format. -/
theorem pushbPushesItsByte : Obligations.PushbPushesItsByte :=
  ⟨fun s b => exec_pushb b s,
    fun cmd dat hop => decode_by_mask 0xA#4 .B rfl cmd dat _ hop (instrOf_pushb cmd dat hop)⟩

/-- An encoded command that its row's fields give back decodes to itself (R76, R77). -/
theorem decode_encode_of_row (i : Instr) (hrow : Laws.EncodedRow.Statement i)
    (hfields : instrOf (encode i).1 (encode i).2 = some i) : decode (encode i).1 (encode i).2 = .ok i := by
  obtain ⟨fmt, hf, hop, hmask⟩ := hrow
  exact (decode_by_mask i.opcode fmt hf _ _ i hop hfields).1 hmask

theorem decode_encode_pushb (b : Byte) : decode (encode (.pushb b)).1 (encode (.pushb b)).2 = .ok (.pushb b) :=
  decode_encode_of_row (.pushb b) (Laws.EncodedRow.pushb b)
    ((instrOf_pushb _ _ (opField_B 0xA#4 b)).trans (congrArg (fun c => some (Instr.pushb c)) (imm8Field_B 0xA#4 b)))

/-- The step of an idle machine with a PUSHB in front of its port. -/
theorem step_pushb (b : Byte) (s : State) (rest : List HostEvent) (hport : s.port = transfers [.pushb b] ++ rest)
    (hidle : s.busy = false) (hstable : s.sbRacing = false) :
    step s = .next
      { s with port := rest, stream := push b s.stream, rsps := s.rsps ++ [⟨0#32, false, 0#4⟩] } := by
  rw [step_transfer (.pushb b) (decode_encode_pushb b) s rest hport hidle, exec_pushb, hstable]

/-- PUSHB commands waiting at an idle port run one per step: they push their bytes in order and send a response each. -/
theorem runSteps_pushbs (bs : List Byte) (rest : List HostEvent) (s : State) (hidle : s.busy = false)
    (hstable : s.sbRacing = false) :
    runSteps bs.length { s with port := transfers (bs.map .pushb) ++ rest } = .next
      { s with
        port := rest
        stream := pushAll bs s.stream
        rsps := s.rsps ++ List.replicate bs.length ⟨0#32, false, 0#4⟩ } := by
  induction bs generalizing s with
  | nil => simp [runSteps, transfers]
  | cons b bs ih =>
    have firstStep := step_pushb b { s with port := transfers ((b :: bs).map .pushb) ++ rest }
      (transfers (bs.map .pushb) ++ rest) rfl hidle hstable
    have others := ih { s with stream := push b s.stream, rsps := s.rsps ++ [⟨0#32, false, 0#4⟩] } hidle hstable
    rw [List.append_assoc] at others
    exact (runSteps_succ bs.length _ _ firstStep).trans others

/-! ### Four bytes from an empty word -/

/-- Four bytes pushed from an empty word fill lanes 0 to 2 and then close the word (R151). -/
theorem pushAll_four (b0 b1 b2 b3 : Byte) (st : PackedStream) (hbcnt : st.bcnt = 0#2) (hacc : st.acc = 0#32) :
    pushAll [b0, b1, b2, b3] st =
      { acc := 0#32, bcnt := 0#2, lcnt := st.lcnt + 1#3,
        out := st.out ++ [⟨.data, 0#2, packedWord b0 b1 b2 b3, decide (st.lcnt = 7#3)⟩] } := by
  have lane0 : push b0 st = { st with acc := b0.setWidth 32, bcnt := 1#2 } := by
    rw [push_of_room b0 st (by rw [hbcnt]; decide), hbcnt, hacc]
    simp
  have lane1 : ∀ acc, push b1 { st with acc := acc, bcnt := 1#2 }
      = { st with acc := acc ||| b1.setWidth 32 <<< 8, bcnt := 2#2 } :=
    fun acc => push_of_room b1 _ (show 1#2 ≠ 3#2 by decide)
  have lane2 : ∀ acc, push b2 { st with acc := acc, bcnt := 2#2 }
      = { st with acc := acc ||| b2.setWidth 32 <<< 16, bcnt := 3#2 } :=
    fun acc => push_of_room b2 _ (show 2#2 ≠ 3#2 by decide)
  simp only [pushAll, List.foldl_cons, List.foldl_nil, lane0, lane1, lane2]
  exact push_of_full b3 _ rfl

/-- Settles O23: the four steps push the four bytes and send a response each, and four bytes pushed from an empty word
close it. -/
theorem fourBytesCloseOneWord : Obligations.FourBytesCloseOneWord := by
  intro s b0 b1 b2 b3 rest hidle hstable hbcnt hacc
  have run := runSteps_pushbs [b0, b1, b2, b3] rest s hidle hstable
  rw [pushAll_four b0 b1 b2 b3 s.stream hbcnt hacc] at run
  exact run

/-! ### PAD -/

/-- `repeat n times: Push(0x00)` (R155) as an iterated function. -/
theorem pushZeros_eq_iterate (n : Nat) (st : PackedStream) : pushZeros n st = (push 0x00#8)^[n] st := by
  induction n with
  | zero => rfl
  | succ n ih => rw [pushZeros, ih, Function.iterate_succ_apply']

theorem pushZeros_out_length (n : Nat) (st : PackedStream) :
    (pushZeros n st).out.length = st.out.length + (st.bcnt.toNat + n) / 4 := by
  rw [pushZeros_eq, pushAll_out_length, List.length_replicate]

theorem pushZeros_bcnt (n : Nat) (st : PackedStream) :
    (pushZeros n st).bcnt.toNat = (st.bcnt.toNat + n) % 4 := by
  rw [pushZeros_eq, pushAll_bcnt, List.length_replicate]

/-- Settles O26: past the readiness check PAD is its zero pushes, whose counts are those of any list of pushes, and its
response; opcode 0xB has one command word for each region. -/
theorem padPushesZeroBytes : Obligations.PadPushesZeroBytes := by
  refine ⟨fun s r hsegv hok => ?_, fun s r h => congrArg _ (whenReady_of_not_flags s _ h),
    decode_R_row 0xB#4 rfl .pad instrOf_pad⟩
  exact ⟨pushPad s r s.stream, congrArg _ (whenReady_of_flags s _ hsegv hok), pushZeros_eq_iterate _ _,
    pushZeros_out_length _ _, pushZeros_bcnt _ _⟩

/-! ### HDR -/

/-- Settles O27: past the readiness check HDR is its header record, emitted past the packer, and its response;
opcode 0xC has one command word for each region. -/
theorem hdrEmitsTheHeader : Obligations.HdrEmitsTheHeader := by
  refine ⟨fun s r hsegv hok => ?_, fun s r h => congrArg _ (whenReady_of_not_flags s _ h),
    decode_R_row 0xC#4 rfl .hdr instrOf_hdr⟩
  refine (congrArg _ (whenReady_of_flags s _ hsegv hok)).trans ?_
  cases r <;> rfl

end Sys2Proof.Machine
end

section
/-! PROOFS of 44_sequencer.md: REGION and EXPORT as a byte stream packed into words (R170, R172), each with the words
that decode to it. -/

namespace Sys2Proof.Machine

/-! ### The packer by its stream view -/

/-- Fewer than four bytes close no word. -/
theorem packWords_of_short (bs : List Byte) (h : bs.length < 4) : packWords bs = [] ∧ leftoverBytes bs = bs := by
  match bs with
  | [] | [_] | [_, _] | [_, _, _] => exact ⟨rfl, rfl⟩
  | _ :: _ :: _ :: _ :: _ => simp only [List.length_cons] at h; omega

/-- How many positions of its line a header takes (R153). -/
abbrev headerLines (p : Params) : Nat := if p.hdrLine then 1 else 0

/-- The simulation relation between the packer and its view as a byte stream: the records emitted, the bytes pending and
the line position, which counts on where LCNT wraps; ACC holds nothing but the pending bytes (R34). -/
structure PackedStream.Holds (st : PackedStream) (out : List OutRecord) (pending : List Byte) (line : Nat) : Prop where
  out_eq : st.out = out
  pending_eq : pendingBytes st = pending
  lcnt_eq : st.lcnt = BitVec.ofNat 3 line
  acc_lt : st.acc.toNat < 2 ^ (8 * st.bcnt.toNat)

namespace PackedStream.Holds

variable {st : PackedStream} {out : List OutRecord} {pending : List Byte} {line : Nat}

/-- A packer that meets R34 has its own fields as its view. -/
theorem self (st : PackedStream) (h : st.acc.toNat < 2 ^ (8 * st.bcnt.toNat)) :
    st.Holds st.out (pendingBytes st) st.lcnt.toNat :=
  ⟨rfl, rfl, by rw [BitVec.ofNat_toNat, BitVec.setWidth_eq], h⟩

/-- The cleared packer has nothing pending and stands at the start of a line (R101). -/
theorem cleared (st : PackedStream) : st.clear.Holds st.out [] 0 :=
  ⟨rfl, rfl, rfl, show 0 < 2 ^ 0 by decide⟩

theorem length_pending (h : st.Holds out pending line) : pending.length = st.bcnt.toNat := by
  have hlt : st.bcnt.toNat < 4 := st.bcnt.isLt
  rw [← h.pending_eq, pendingBytes, List.length_take]
  exact Nat.min_eq_left hlt.le

/-- A byte pushed into a free lane becomes pending. -/
theorem after_push_of_room (h : st.Holds out pending line) (b : Byte) (hroom : st.bcnt ≠ 3#2) :
    (push b st).Holds out (pending ++ [b]) line where
  out_eq := by rw [push_of_room b st hroom, ← h.out_eq]
  pending_eq := by
    have hlane : st.bcnt.toNat ≠ 3 := fun e => hroom (BitVec.eq_of_toNat_eq e)
    have hlt : st.bcnt.toNat < 4 := st.bcnt.isLt
    have hnext : (push b st).bcnt.toNat = st.bcnt.toNat + 1 := by
      rw [push_bcnt_toNat, Nat.mod_eq_of_lt (by omega)]
    rw [pendingBytes, hnext, push_of_room b st hroom, ← h.pending_eq]
    exact laneBytes_fill st.bcnt.toNat (by omega) st.acc b h.acc_lt
  lcnt_eq := by rw [push_of_room b st hroom, ← h.lcnt_eq]
  acc_lt := push_acc b st h.acc_lt

/-- A line position is the last of its line exactly when LCNT is 7 (R153). -/
theorem lcnt_beq_seven (h : st.Holds out pending line) : (st.lcnt == 7#3) = (line % 8 == 7) := by
  rw [Bool.eq_iff_iff, beq_iff_eq, beq_iff_eq, h.lcnt_eq, ← BitVec.toNat_inj, BitVec.toNat_ofNat]
  rfl

/-- A byte pushed into the last lane closes the word of the three pending bytes and itself. -/
theorem after_push_of_full (h : st.Holds out pending line) (b : Byte) (hfull : st.bcnt = 3#2) :
    ∃ b0 b1 b2, pending = [b0, b1, b2]
      ∧ (push b st).Holds (out ++ [⟨.data, 0#2, packedWord b0 b1 b2 b, line % 8 == 7⟩]) [] (line + 1) := by
  have hacc : st.acc.toNat < 2 ^ 24 := by simpa [hfull] using h.acc_lt
  have hpending : pending = [st.acc.extractLsb' 0 8, st.acc.extractLsb' 8 8, st.acc.extractLsb' 16 8] := by
    rw [← h.pending_eq, pendingBytes, hfull]
    rfl
  refine ⟨_, _, _, hpending, ?_, ?_, ?_, push_acc b st h.acc_lt⟩
  · rw [push_of_full b st hfull, closed_word st.acc b hacc, ← h.lcnt_beq_seven, ← h.out_eq]
    rfl
  · rw [push_of_full b st hfull]
    rfl
  · rw [push_of_full b st hfull, BitVec.ofNat_add, ← h.lcnt_eq]
    rfl

/-- Pushed bytes follow the pending ones, four at a time they become DATA records, and what is left over stays pending
(R150 to R153, R159). -/
theorem after_pushAll (h : st.Holds out pending line) (bs : List Byte) :
    (pushAll bs st).Holds (out ++ dataRecords line (packWords (pending ++ bs))) (leftoverBytes (pending ++ bs))
      (line + (packWords (pending ++ bs)).length) := by
  induction bs generalizing st out pending line with
  | nil =>
    obtain ⟨hwords, hleft⟩ := packWords_of_short pending (h.length_pending ▸ st.bcnt.isLt)
    simpa [hwords, hleft, dataRecords] using h
  | cons b bs ih =>
    by_cases hfull : st.bcnt = 3#2
    · obtain ⟨b0, b1, b2, rfl, closed⟩ := h.after_push_of_full b hfull
      have rest := ih closed
      rwa [List.append_assoc, List.nil_append, Nat.add_assoc, Nat.add_comm 1] at rest
    · have rest := ih (h.after_push_of_room b hfull)
      rwa [List.append_assoc] at rest

/-- A header goes to the output past the pending bytes (R157, R158). -/
theorem after_emitHeader (h : st.Holds out pending line) (s : State) (r : Region) :
    (emitHeader s r st).Holds (out ++ [headerRecord s r (BitVec.ofNat 3 line)]) pending
      (line + headerLines s.params) where
  out_eq := by
    rw [← h.out_eq, ← h.lcnt_eq]
    rfl
  pending_eq := h.pending_eq
  lcnt_eq := by
    rw [emitHeader, emit_lcnt, h.lcnt_eq, headerLines]
    cases s.params.hdrLine
    · rfl
    · exact (BitVec.ofNat_add line 1).symm
  acc_lt := h.acc_lt

/-- The body of REGION in the stream view: its header record, then the words of the pending bytes and its own (R170). -/
theorem after_regionBody (h : st.Holds out pending line) (s : State) (r : Region) :
    (regionBody s r st).Holds
      (out ++ [headerRecord s r (BitVec.ofNat 3 line)]
        ++ dataRecords (line + headerLines s.params) (packWords (pending ++ regionBytes s r)))
      (leftoverBytes (pending ++ regionBytes s r))
      (line + headerLines s.params + (packWords (pending ++ regionBytes s r)).length) := by
  rw [regionBody_eq]
  exact (h.after_emitHeader s r).after_pushAll (regionBytes s r)

end PackedStream.Holds

/-! ### REGION -/

theorem instrOf_region (cmd dat : Word) (h : opField cmd = 0xD#4) :
    instrOf cmd dat = (Region.ofBits (rgField cmd)).map .region := by
  rw [instrOf, h]
  rfl

/-- How many records the body of REGION appends (R170): its header and a word for every fourth byte. -/
theorem regionBody_out_length (s : State) (r : Region) (st : PackedStream) :
    (regionBody s r st).out.length = st.out.length + 1
      + (st.bcnt.toNat + (s.seg.region r).n.toNat * bytesPerSample s.seg.smode + (s.seg.region r).pad.toNat) / 4 := by
  rw [regionBody_eq, pushAll_out_length, regionBytes_length, emitHeader, emit_out, emit_bcnt, List.length_append,
    Nat.add_assoc st.bcnt.toNat]
  rfl

/-- Settles O29: past the readiness check REGION is its body, whose stream view starts from the packer's own fields with
the header emitted; opcode 0xD has one command word for each region. -/
theorem regionEmitsPackedBytes : Obligations.RegionEmitsPackedBytes := by
  refine ⟨fun s r hsegv hok hacc => ?_, fun s r h => congrArg _ (whenReady_of_not_flags s _ h),
    decode_R_row 0xD#4 rfl .region instrOf_region⟩
  have packed := (PackedStream.Holds.self (emitHeader s r s.stream) hacc).after_pushAll (regionBytes s r)
  rw [← regionBody_eq] at packed
  exact ⟨regionBody s r s.stream, congrArg _ (whenReady_of_flags s _ hsegv hok), packed.out_eq, packed.pending_eq,
    packed.acc_lt, by rw [packed.lcnt_eq, BitVec.toNat_ofNat]; rfl, regionBody_out_length s r s.stream⟩

/-! ### EXPORT -/

/-- The value of SEG's code (R201, R205). -/
theorem validationCode_bits (g : SegResults) :
    (validationCode g).bits =
      if g.eOrder then 3#4 else if g.eMalf then 4#4 else if g.eLen then 5#4
      else if g.eLooplen then 6#4 else if g.eEndloop then 7#4 else 0#4 := by
  simp only [validationCode, apply_ite Code.bits]
  rfl

/-- With OK = 1 no fatal bit is set, so the code is a warning or none (R117). -/
theorem validationCode_bits_of_ok (c : Control) (m : Metadata) (hok : (segmentOf c m).ok = true) :
    (validationCode (segmentOf c m)).bits =
      if (segmentOf c m).eLooplen then 6#4 else if (segmentOf c m).eEndloop then 7#4 else 0#4 := by
  have hfatal : ((orderViolated m || malformedBit m) || lengthBit m) = false := not_fatal_of_ok c m hok
  obtain ⟨hrest, hlen⟩ := Bool.or_eq_false_iff.mp hfatal
  obtain ⟨horder, hmalf⟩ := Bool.or_eq_false_iff.mp hrest
  rw [validationCode_bits, segment_eOrder, segment_eMalf, segment_eLen, horder, hmalf, hlen]
  rfl

/-- The state in which the region bodies of an EXPORT are evaluated: SEG's results are in. -/
abbrev withSegment (s : State) : State := { s with seg := segmentOf s.control s.metadata }

/-- The three regions read nothing that EXPORT's own clearing of packer and sticky bits changes (R172). -/
theorem exportBody_segEffects (s : State) :
    exportBody (segEffects (clearEffects s)) =
      regionBody (withSegment s) .decay
        (regionBody (withSegment s) .loop (regionBody (withSegment s) .attack s.stream.clear)) := by
  have same : ∀ r st, regionBody (segEffects (clearEffects s)) r st = regionBody (withSegment s) r st :=
    fun r st => regionBody_congr _ _ r st rfl rfl fun a => memRead_congr _ _ a rfl rfl rfl
  simp only [exportBody, same]
  rfl

/-- Settles O31: with OK = 1 the three region bodies follow one another in the stream view, from the cleared packer on;
with OK = 0 EXPORT is refused after CLR and SEG; opcode 0xE has one command word. -/
theorem exportEmitsPackedRegions : Obligations.ExportEmitsPackedRegions := by
  refine ⟨fun s hok => ?_, fun s hrefused => ?_, decode_N_row 0xE#4 rfl (fun _ => .exportRun) fun _ => rfl⟩
  · rcases execExport_cases s with ⟨-, ran⟩ | ⟨hrefused, -⟩
    · rw [respond, validationCode_bits_of_ok _ _ hok, exportBody_segEffects] at ran
      have packedA := (PackedStream.Holds.cleared s.stream).after_regionBody (withSegment s) .attack
      rw [Nat.zero_add] at packedA
      have packedD := (packedA.after_regionBody (withSegment s) .loop).after_regionBody (withSegment s) .decay
      exact ⟨_, ran, packedD.out_eq, packedD.pending_eq, packedD.acc_lt, packedD.lcnt_eq⟩
    · rw [hok] at hrefused
      cases hrefused
  · rcases execExport_cases s with ⟨hok, -⟩ | ⟨-, refused⟩
    · rw [hrefused] at hok
      cases hok
    · rw [respond, validationCode_bits] at refused
      exact refused

end Sys2Proof.Machine
end

section
/-! PROOFS of 60_exceptions.md: the commands that end in an error with no effect, NOTREADY (R203) and ILLEGAL (R202). -/

namespace Sys2Proof.Machine

/-! ### NOTREADY -/

/-- PAD, HDR and REGION each are an effect behind the readiness check (R203). -/
theorem exec_eq_whenReady (s : State) (r : Region) (i : Instr) (hi : i ∈ [.pad r, .hdr r, .region r]) :
    ∃ t, exec i s = .next (whenReady s t) := by
  simp only [List.mem_cons, List.not_mem_nil, or_false] at hi
  rcases hi with rfl | rfl | rfl
  · exact ⟨_, rfl⟩
  · exact ⟨_, rfl⟩
  · exact ⟨_, rfl⟩

/-- Settles O30: without the two flags the readiness check refuses, whatever effect stands behind it. -/
theorem regionCommandsNotReady : Obligations.RegionCommandsNotReady := by
  intro s r i hi hflags
  obtain ⟨t, ht⟩ := exec_eq_whenReady s r i hi
  rw [ht, whenReady_of_not_flags s t hflags]

/-! ### ILLEGAL -/

/-- The step of an idle machine with a pair in front of its port that does not decode (R71, R202). -/
theorem step_undecodable (s : State) (cmd dat : Word) (rest : List HostEvent) (why : IllegalWord)
    (hport : s.port = .command cmd dat ⟨true, true⟩ :: rest) (hidle : s.busy = false)
    (hillegal : decode cmd dat = .illegal why) :
    step s = .next (raiseError .illegal { s with port := rest, sbRacing := false }) := by
  rw [step_command s cmd dat rest hport hidle]
  rcases runCommand_cases cmd dat { s with port := rest, sbRacing := false } with ⟨i, hok, -⟩ | ⟨-, -, ran⟩
  · rw [hillegal] at hok
    cases hok
  · exact ran

/-- The addresses where the register map has no register (R41). -/
abbrev UndefinedAddr (ra : RegAddr) : Prop :=
  ra ∈ [0x16#8, 0x17#8, 0x1B#8, 0x1F#8] ∨ (0x09#8 ≤ ra ∧ ra ≤ 0x0F#8) ∨ 0x27#8 ≤ ra

theorem addr_ne_of_undefinedAddr (ra : RegAddr) (h : UndefinedAddr ra) (r : RegName) : r.addr ≠ ra := by
  have named : ∀ r ∈ RegName.all, ¬UndefinedAddr r.addr := by decide
  rintro rfl
  exact named r r.mem_all h

/-- Settles O40: a pair that does not decode raises ILLEGAL instead of running, WREG raises it outside the writable
addresses, and RREG where there is no register. -/
theorem illegalCommandOnlySetsIll : Obligations.IllegalCommandOnlySetsIll := by
  refine ⟨fun s cmd dat rest why hport hidle hstable hillegal => ?_, fun s ra dat i hi => ?_⟩
  · rw [step_undecodable s cmd dat rest why hport hidle hillegal, hstable]
    rfl
  · rcases hi with ⟨rfl, hra⟩ | ⟨rfl, hra⟩
    · have above : ra = 0x01#8 ∨ 0x07#8 < ra := hra.imp_right fun h => by bv_omega
      exact execWreg_refused ra (not_mem_writableAddrs ra above) dat s
    · exact execRreg_refused ra (addr_ne_of_undefinedAddr ra hra) s

end Sys2Proof.Machine
end

section
/-! PROOFS of 43_packer.md: the packer as a byte stream cut into words and lines (R150 to R153, R159), one push (R150,
R152), the header word (R156), and what the output port carries of both kinds of record (R70). -/

namespace Sys2Proof.Machine

/-! ### Any sequence of bytes -/

/-- Settles O24: a packer that meets R34 starts from its own fields as its stream view, and pushing bytes moves the
view on as the list-based packing does; BCNT counts the pushes. -/
theorem packerIsAByteStream : Obligations.PackerIsAByteStream := by
  intro bs st hacc
  have packed := (PackedStream.Holds.self st hacc).after_pushAll bs
  exact ⟨packed.out_eq, packed.pending_eq, pushAll_bcnt bs st, by rw [packed.lcnt_eq, BitVec.toNat_ofNat],
    packed.acc_lt⟩

/-! ### One push -/

/-- Settles O21: the two cases of a push, by whether the byte goes to the last lane. -/
theorem pushClosesOnFourthByte : Obligations.PushClosesOnFourthByte :=
  fun b st => ⟨push_of_full b st, push_of_room b st⟩

/-! ### The header word -/

theorem formatTag_eq_ite (m : Mode) : formatTag m = if m = .mulaw then 0x01#8 else 0x81#8 := by
  cases m <;> rfl

/-- A bit of the header word belongs to the count below bit 24 and to the tag from there on (R156). -/
theorem headerWord_getLsbD (n : Word) (m : Mode) (i : Nat) (hi : i < 32) :
    (headerWord n m).getLsbD i = (n.getLsbD i || decide (24 ≤ i) && (formatTag m).getLsbD (i - 24)) := by
  rw [headerWord, BitVec.getLsbD_or, field_getLsbD _ 24 i hi]

/-- The tag stands in bits 31:24 of the header word, where the count leaves them free. -/
theorem headerWord_tag (n : Word) (m : Mode) (h : n.toNat < 2 ^ 24) :
    (headerWord n m).extractLsb' 24 8 = formatTag m := by
  apply BitVec.eq_of_getLsbD_eq
  intro i hi
  rw [BitVec.getLsbD_extractLsb', headerWord_getLsbD n m _ (by omega), getLsbD_of_lt_two_pow n 24 _ h (by omega)]
  simp [hi]

/-- The count stands in bits 23:0 of the header word. -/
theorem headerWord_count (n : Word) (m : Mode) : (headerWord n m).extractLsb' 0 24 = n.extractLsb' 0 24 := by
  apply BitVec.eq_of_getLsbD_eq
  intro i hi
  have below : ¬24 ≤ i := by omega
  rw [BitVec.getLsbD_extractLsb', BitVec.getLsbD_extractLsb', Nat.zero_add, headerWord_getLsbD n m i (by omega)]
  simp [below]

/-- Settles O25: the word is the count and the tag side by side; a count below 2^24 does not reach the tag, nor the
tag the count. -/
theorem headerWordLayout : Obligations.HeaderWordLayout := by
  refine ⟨fun n m hn => ⟨by cases m <;> rfl, ?_, ?_⟩, rfl, rfl, rfl⟩
  · rw [headerWord_tag n m hn, formatTag_eq_ite]
  · rw [headerWord_count, BitVec.extractLsb'_toNat, Nat.shiftRight_zero, Nat.mod_eq_of_lt hn]

/-! ### The output port -/

/-- Past the readiness check HDR emits its header and sends its response (R157). -/
theorem exec_hdr_of_flags (r : Region) (s : State) (hsegv : s.seg.segv = true) (hok : s.seg.ok = true) :
    exec (.hdr r) s = .next (complete 0#32 { s with stream := emitHeader s r s.stream }) :=
  congrArg _ (whenReady_of_flags s _ hsegv hok)

theorem emitHeader_out (s : State) (r : Region) (st : PackedStream) :
    (emitHeader s r st).out = st.out ++ [headerRecord s r st.lcnt] := rfl

/-- A header on the output port: `out_kind` 1 and the region's number (R15, R70). -/
theorem headerRecord_signals (s : State) (r : Region) (l : BitVec 3) :
    (headerRecord s r l).signals =
      ⟨1#1, match r with | .attack => 0#2 | .loop => 1#2 | .decay => 2#2,
        headerWord (s.seg.region r).n s.seg.smode, s.params.hdrLine && l == 7#3⟩ := by
  cases r <;> rfl

/-- Settles O58: HDR appends its header record and a PUSHB the record of the word that it closes, if it closes one;
the port shows each record field by field. -/
theorem outputPortCarriesTheRecords : Obligations.OutputPortCarriesTheRecords := by
  refine ⟨fun s r hsegv hok => ⟨_, exec_hdr_of_flags r s hsegv hok, ?_⟩,
    fun s b => ⟨_, exec_pushb b s, fun hfull => ?_, fun hroom => ?_⟩⟩
  · exact (outTransfers_append s _ _ (emitHeader_out s r s.stream)).trans
      (congrArg (fun header => outTransfers s ++ [header]) (headerRecord_signals s r s.stream.lcnt))
  · exact (outTransfers_append s _ _ (congrArg PackedStream.out (push_of_full b s.stream hfull))).trans rfl
  · simp only [outTransfers, push_of_room b s.stream hroom]

end Sys2Proof.Machine
end

section
/-! PROOFS of 30_encoding.md: decoder and encoder are inverse to each other on the words that the decoder accepts, and
these are the words of the opcode table (R73 to R79). -/

namespace Sys2Proof

open Sys2Proof.Machine

/-! ### Decoding an encoding -/

theorem instrOf_padq (cmd dat : Word) (h : opField cmd = 0x5#4) : instrOf cmd dat = some (.padq dat) := by
  rw [instrOf, h]
  rfl

theorem instrOf_wcq (cmd dat : Word) (h : opField cmd = 0x6#4) : instrOf cmd dat = some (.wcq dat) := by
  rw [instrOf, h]
  rfl

/-- The fields of an encoded command give the command back (R73, R76). -/
theorem instrOf_encode (i : Instr) : instrOf (encode i).1 (encode i).2 = some i := by
  cases i with
  | nop | clr | seg | exportRun => rfl
  | padq n => exact instrOf_padq _ n (opField_N 0x5#4)
  | wcq n => exact instrOf_wcq _ n (opField_N 0x6#4)
  | wreg ra dat =>
    exact (instrOf_wreg _ dat (opField_G 0x2#4 ra)).trans (congrArg (fun a => some (Instr.wreg a dat))
      (raField_G 0x2#4 ra))
  | rreg ra => exact (instrOf_rreg _ _ (opField_G 0x3#4 ra)).trans (congrArg (some ∘ Instr.rreg) (raField_G 0x3#4 ra))
  | pcm x => exact (instrOf_pcm _ _ (opField_S 0x7#4 x)).trans (congrArg (some ∘ Instr.pcm) (imm16Field_S 0x7#4 x))
  | mulaw x =>
    exact (instrOf_mulaw _ _ (opField_S 0x8#4 x)).trans (congrArg (some ∘ Instr.mulaw) (imm16Field_S 0x8#4 x))
  | encq x => exact (instrOf_encq _ _ (opField_S 0x9#4 x)).trans (congrArg (some ∘ Instr.encq) (imm16Field_S 0x9#4 x))
  | pushb b => exact (instrOf_pushb _ _ (opField_B 0xA#4 b)).trans (congrArg (some ∘ Instr.pushb) (imm8Field_B 0xA#4 b))
  | pad r => exact (instrOf_pad _ _ (opField_R 0xB#4 r)).trans (congrArg (Option.map Instr.pad) (rgField_R 0xB#4 r))
  | hdr r => exact (instrOf_hdr _ _ (opField_R 0xC#4 r)).trans (congrArg (Option.map Instr.hdr) (rgField_R 0xC#4 r))
  | region r =>
    exact (instrOf_region _ _ (opField_R 0xD#4 r)).trans (congrArg (Option.map Instr.region) (rgField_R 0xD#4 r))

/-- The encoding of every command matches its row of the opcode table (R74, R76). -/
theorem encodedRow (i : Instr) : Laws.EncodedRow.Statement i := by
  cases i with
  | nop => exact Laws.EncodedRow.nop
  | clr => exact Laws.EncodedRow.clr
  | wreg ra dat => exact Laws.EncodedRow.wreg ra dat
  | rreg ra => exact Laws.EncodedRow.rreg ra
  | seg => exact Laws.EncodedRow.seg
  | padq n => exact Laws.EncodedRow.padq n
  | wcq n => exact Laws.EncodedRow.wcq n
  | pcm x => exact Laws.EncodedRow.pcm x
  | mulaw x => exact Laws.EncodedRow.mulaw x
  | encq x => exact Laws.EncodedRow.encq x
  | pushb b => exact Laws.EncodedRow.pushb b
  | pad r => exact Laws.EncodedRow.pad r
  | hdr r => exact Laws.EncodedRow.hdr r
  | region r => exact Laws.EncodedRow.region r
  | exportRun => exact Laws.EncodedRow.exportRun

/-- Settles O35: an encoding matches its command's row, and its fields give the command back. -/
theorem decodeOfEncode : Obligations.DecodeOfEncode :=
  fun i => decode_encode_of_row i (encodedRow i) (instrOf_encode i)

/-! ### Encoding a decoded word -/

/-- The N format masks out no field (R74). -/
theorem and_not_maskOf_N (cmd : Word) : cmd &&& ~~~maskOf .N = 0#32 :=
  BitVec.and_zero

/-- The G format masks out the field RA and nothing else (R74). -/
theorem and_not_maskOf_G (cmd : Word) : cmd &&& ~~~maskOf .G = (raField cmd).setWidth 32 <<< 16 := by
  apply BitVec.eq_of_getLsbD_eq
  intro i hi
  simp only [maskOf, raField, BitVec.getLsbD_and, BitVec.getLsbD_shiftLeft, BitVec.getLsbD_setWidth,
    BitVec.getLsbD_extractLsb']
  interval_cases i <;> simp

/-- The S format masks out the field IMM16 and nothing else (R74). -/
theorem and_not_maskOf_S (cmd : Word) : cmd &&& ~~~maskOf .S = (imm16Field cmd).setWidth 32 := by
  apply BitVec.eq_of_getLsbD_eq
  intro i hi
  simp only [maskOf, imm16Field, BitVec.getLsbD_and, BitVec.getLsbD_setWidth, BitVec.getLsbD_extractLsb']
  interval_cases i <;> simp

/-- The B format masks out the field IMM8 and nothing else (R74). -/
theorem and_not_maskOf_B (cmd : Word) : cmd &&& ~~~maskOf .B = (imm8Field cmd).setWidth 32 := by
  apply BitVec.eq_of_getLsbD_eq
  intro i hi
  simp only [maskOf, imm8Field, BitVec.getLsbD_and, BitVec.getLsbD_setWidth, BitVec.getLsbD_extractLsb']
  interval_cases i <;> simp

/-- What the fields of a word make of it: a command of the word's opcode, whose operand fields are the bits that the
format leaves to them, and whose operand is the given one where the command uses it (R73, R76, R79). -/
theorem fields_of_instrOf (cmd dat : Word) (fmt : Format) (hf : formatOf (opField cmd) = some fmt) :
    ∀ i, instrOf cmd dat = some i → i.opcode = opField cmd ∧ i.fieldBits = cmd &&& ~~~maskOf fmt
      ∧ i.operand = (match i with | .wreg _ _ | .padq _ | .wcq _ => dat | _ => 0#32) := by
  intro i hi
  unfold instrOf at hi
  split at hi
  case h_1 hop | h_2 hop | h_5 hop | h_6 hop | h_7 hop | h_15 hop =>
    obtain rfl := Option.some.inj hi
    rw [formatOf, hop] at hf
    obtain rfl : Format.N = fmt := Option.some.inj hf
    exact ⟨(BitVec.eq_of_toNat_eq hop).symm, (and_not_maskOf_N cmd).symm, rfl⟩
  case h_3 hop | h_4 hop =>
    obtain rfl := Option.some.inj hi
    rw [formatOf, hop] at hf
    obtain rfl : Format.G = fmt := Option.some.inj hf
    exact ⟨(BitVec.eq_of_toNat_eq hop).symm, (and_not_maskOf_G cmd).symm, rfl⟩
  case h_8 hop | h_9 hop | h_10 hop =>
    obtain rfl := Option.some.inj hi
    rw [formatOf, hop] at hf
    obtain rfl : Format.S = fmt := Option.some.inj hf
    exact ⟨(BitVec.eq_of_toNat_eq hop).symm, (and_not_maskOf_S cmd).symm, rfl⟩
  case h_11 hop =>
    obtain rfl := Option.some.inj hi
    rw [formatOf, hop] at hf
    obtain rfl : Format.B = fmt := Option.some.inj hf
    exact ⟨(BitVec.eq_of_toNat_eq hop).symm, (and_not_maskOf_B cmd).symm, rfl⟩
  case h_12 hop | h_13 hop | h_14 hop =>
    obtain ⟨r, hrg, rfl⟩ := Option.map_eq_some_iff.mp hi
    rw [formatOf, hop] at hf
    obtain rfl : Format.R = fmt := Option.some.inj hf
    have hbits : (rgField cmd).setWidth 32 <<< 24 = (r.bits.setWidth 32 <<< 24 : Word) := by
      rw [bits_of_ofBits (rgField cmd) r hrg]
    exact ⟨(BitVec.eq_of_toNat_eq hop).symm, ((and_not_maskOf_R cmd).trans hbits).symm, rfl⟩
  case h_16 => cases hi

/-- Settles O36: a word that decodes matches its row, so it is the row's opcode and the bits left to the fields, and
the command has that opcode and those field bits. -/
theorem encodeOfDecode : Obligations.EncodeOfDecode := by
  intro cmd dat i hdecode
  obtain ⟨fmt, hf, hmask, hi⟩ := (decode_eq_ok_iff cmd dat i).mp hdecode
  obtain ⟨hop, hbits, hoperand⟩ := fields_of_instrOf cmd dat fmt hf i hi
  refine ⟨?_, hoperand⟩
  show opBase i.opcode ||| i.fieldBits = cmd
  rw [hop, hbits]
  exact (word_of_mask cmd fmt (opField cmd) hmask).symm

/-! ### The opcode table -/

/-- The 15 rows of the opcode table as (match, mask) (R74, R76). -/
abbrev opcodeRows : List (Word × Word) :=
  [(0x00000000#32, 0xFFFFFFFF#32), (0x10000000#32, 0xFFFFFFFF#32), (0x20000000#32, 0xFF00FFFF#32),
   (0x30000000#32, 0xFF00FFFF#32), (0x40000000#32, 0xFFFFFFFF#32), (0x50000000#32, 0xFFFFFFFF#32),
   (0x60000000#32, 0xFFFFFFFF#32), (0x70000000#32, 0xFFFF0000#32), (0x80000000#32, 0xFFFF0000#32),
   (0x90000000#32, 0xFFFF0000#32), (0xA0000000#32, 0xFFFFFF00#32), (0xB0000000#32, 0xFCFFFFFF#32),
   (0xC0000000#32, 0xFCFFFFFF#32), (0xD0000000#32, 0xFCFFFFFF#32), (0xE0000000#32, 0xFFFFFFFF#32)]

/-- These are the rows of the opcodes that have a format. -/
theorem mem_opcodeRows_iff (row : Word × Word) :
    row ∈ opcodeRows ↔ ∃ op fmt, formatOf op = some fmt ∧ (opBase op, maskOf fmt) = row := by
  constructor
  · have listed : ∀ row ∈ opcodeRows,
        (formatOf (opField row.1)).map (fun fmt => (opBase (opField row.1), maskOf fmt)) = some row := by
      intro row h
      fin_cases h <;> rfl
    exact fun h => ⟨opField row.1, Option.map_eq_some_iff.mp (listed row h)⟩
  · have listed : ∀ op, ∀ fmt ∈ (formatOf op).toList, (opBase op, maskOf fmt) ∈ opcodeRows := by decide
    rintro ⟨op, fmt, hf, rfl⟩
    exact listed op fmt (Option.mem_toList.mpr hf)

theorem maskOf_eq_R_iff (fmt : Format) : maskOf fmt = 0xFCFFFFFF#32 ↔ fmt = .R := by
  cases fmt <;> decide

/-- RG = 3 is the one value that names no region (R15). -/
theorem ofBits_isSome_iff (rg : BitVec 2) : (Region.ofBits rg).isSome ↔ rg ≠ 3#2 := by
  revert rg
  decide

/-- A word of an opcode with a format has a command, unless the format is R and RG names no region (R76, R77). -/
theorem instrOf_isSome_iff (cmd dat : Word) (fmt : Format) (hf : formatOf (opField cmd) = some fmt) :
    (instrOf cmd dat).isSome ↔ (fmt = .R → rgField cmd ≠ 3#2) := by
  rw [← ofBits_isSome_iff]
  unfold instrOf
  unfold formatOf at hf
  split at hf <;> cases hf <;> simp [*]

/-- Settles O34: the decoder accepts a word exactly when the word matches the row of its own opcode and has a command,
which only RG = 3 prevents; a row that a word matches is that of the word's opcode. -/
theorem decodeAcceptsTheOpcodeTable : Obligations.DecodeAcceptsTheOpcodeTable := by
  intro cmd dat
  have accepts : (∃ row ∈ opcodeRows, cmd &&& row.2 = row.1 ∧ (row.2 = 0xFCFFFFFF#32 → rgField cmd ≠ 3#2))
      ↔ ∃ i, decode cmd dat = .ok i := by
    constructor
    · rintro ⟨row, hrow, hmask, hrg⟩
      obtain ⟨op, fmt, hf, rfl⟩ := (mem_opcodeRows_iff row).mp hrow
      obtain rfl := opField_of_mask cmd fmt op hmask
      have hsome := (instrOf_isSome_iff cmd dat fmt hf).mpr fun hR => hrg ((maskOf_eq_R_iff fmt).mpr hR)
      obtain ⟨i, hi⟩ := Option.isSome_iff_exists.mp hsome
      exact ⟨i, (decode_eq_ok_iff cmd dat i).mpr ⟨fmt, hf, hmask, hi⟩⟩
    · rintro ⟨i, hdecode⟩
      obtain ⟨fmt, hf, hmask, hi⟩ := (decode_eq_ok_iff cmd dat i).mp hdecode
      have hrg := (instrOf_isSome_iff cmd dat fmt hf).mp (Option.isSome_iff_exists.mpr ⟨i, hi⟩)
      exact ⟨_, (mem_opcodeRows_iff _).mpr ⟨opField cmd, fmt, hf, rfl⟩, hmask,
        fun hR => hrg ((maskOf_eq_R_iff fmt).mp hR)⟩
  refine ⟨accepts, (not_congr accepts).trans ⟨(decode_ok_or_illegal cmd dat).resolve_left, ?_⟩⟩
  rintro ⟨why, hillegal⟩ ⟨i, hok⟩
  rw [hok] at hillegal
  cases hillegal

/-! ### Written-out words -/

/-- Settles O38: the decoder is evaluated on each word. -/
theorem writtenOutWordsDecode : Obligations.WrittenOutWordsDecode := by
  unfold Obligations.WrittenOutWordsDecode
  decide

end Sys2Proof
end

section
/-! PROOFS of 40_control.md and 41_segmenter.md: CTRL read back (R23), the segmentation after a WREG (R224), what SEG
writes and answers (R112, R117, R205), and the laws of the region alignment calculator (R120). -/

namespace Sys2Proof.Machine

/-! ### WREG -/

/-- Settles O6: WREG and RREG find CTRL at its address, and of the written word MODE and FORCE are kept. -/
theorem ctrlReadsBackTwoBits : Obligations.CtrlReadsBackTwoBits := by
  intro s v
  refine ⟨_, execWreg_addr_rw .ctrl rfl v s, ?_⟩
  rw [← ctrlWord_ctrlOfWord]
  exact execRreg_addr .ctrl _

/-- Settles O7: a write leaves SEGV and OK at 0 and the other results as they were, and without SEGV the region
commands are NOTREADY and every HDR_r reads 0. -/
theorem staleSegmentationRefused : Obligations.StaleSegmentationRefused := by
  intro s ra dat hra
  obtain ⟨r, hrw, rfl⟩ := (mem_writableAddrs_iff ra).mp hra
  refine ⟨_, execWreg_addr_rw r hrw dat s, ?_, fun g i hi => regionCommandsNotReady _ g i hi (by simp),
    execRreg_hdr_of_stale _ (by simp)⟩
  rw [complete_seg, invalidateSeg_seg, writeReg_seg]

/-! ### SEG -/

/-- Settles O10: SEG is its effects and its response, whose code is that of `validationCode`; opcode 4 has one command
word. -/
theorem segRespondsByPriority : Obligations.SegRespondsByPriority := by
  refine ⟨fun s => ⟨_, rfl, ?_⟩, decode_N_row 0x4#4 rfl (fun _ => .seg) fun _ => rfl⟩
  rw [respondSeg_seg, ← validationCode_bits]
  rfl

/-- Without a fatal bit the derived registers of a region hold its range relative to START and what follows from it,
unwrapped (R112, R117). -/
theorem derivedRegs_toNat (c : Control) (m : Metadata) (r : Region) (h : fatalBit m = false) :
    (derivedRegs c m r).rb.toNat = rangeStart m r ∧ (derivedRegs c m r).re.toNat = rangeEnd m r
    ∧ (derivedRegs c m r).n.toNat = sampleCount m r
    ∧ (derivedRegs c m r).pad.toNat = padCount (sampleCount m r)
    ∧ (derivedRegs c m r).wc.toNat = wordCount (sampleCount m r) c.mode := by
  rw [derivedRegs_of_not_fatal c m r h]
  exact regionRegsOf_toNat c m r

/-- Settles O9: under a fatal bit SEG's results are blank; without one each region holds its range, and the total is
the sum of the three word counts. -/
theorem segDerivedRegisters : Obligations.SegDerivedRegisters := by
  intro s
  refine ⟨_, rfl, rfl, rfl, fun hfatal => ?_, fun hfine => ?_⟩
  · have blank := segment_blank s.control s.metadata hfatal
    exact ⟨blank.regions .attack, blank.regions .loop, blank.regions .decay, blank.total⟩
  · have range := fun r => derivedRegs_toNat s.control s.metadata r hfine
    exact ⟨range .attack, range .loop, range .decay, (segment_computed s.control s.metadata hfine).total⟩

/-! ### The four laws -/

theorem wordCount_eq_one_iff (n : Nat) (m : Mode) : wordCount n m = 1 ↔ n = 0 := by
  have aligned := add_padCount_mod n
  have small := padCount_lt n
  rw [wordCount_eq]
  cases m <;> simp only [bytesPerSample] <;> omega

/-- The three ranges follow one another from 0 to `END - START`, so every byte below it lies in one of them. -/
theorem mem_range_iff (m : Metadata) (h : orderViolated m = false) (a : Nat) :
    a < m.endOff.toNat - m.startOff.toNat ↔ ∃ r, rangeStart m r ≤ a ∧ a < rangeEnd m r := by
  obtain ⟨hstart, hloop, hstop⟩ := (orderViolated_eq_false m).mp h
  constructor
  · intro ha
    rcases Nat.lt_or_ge a (m.sloop.toNat - m.startOff.toNat) with hA | hA
    · exact ⟨.attack, Nat.zero_le a, hA⟩
    rcases Nat.lt_or_ge a (m.eloop.toNat - m.startOff.toNat) with hL | hL
    · exact ⟨.loop, hA, hL⟩
    · exact ⟨.decay, hL, ha⟩
  · rintro ⟨r, -, ha⟩
    cases r <;> simp only [rangeEnd] at ha <;> omega

/-- A byte lies in one of the three ranges at most. -/
theorem range_unique (m : Metadata) (h : orderViolated m = false) (a : Nat) (r r' : Region)
    (hr : rangeStart m r ≤ a ∧ a < rangeEnd m r) (hr' : rangeStart m r' ≤ a ∧ a < rangeEnd m r') : r = r' := by
  obtain ⟨hstart, hloop, hstop⟩ := (orderViolated_eq_false m).mp h
  cases r <;> cases r' <;> simp only [rangeStart, rangeEnd, reduceCtorEq] at hr hr' ⊢ <;> omega

/-- Settles O14: the first three laws are those of `padCount`, `wordCount` and the ranges; after a SEG with OK = 1 the
results are computed, which bounds the counts and makes the lengths even. -/
theorem segmenterLaws : Obligations.SegmenterLaws := by
  refine ⟨fun n => ⟨Nat.le_of_lt_succ (padCount_lt n), add_padCount_mod n⟩,
    fun n m => ⟨Nat.le_add_left 1 _, wordCount_eq_one_iff n m⟩,
    fun m h a => ⟨mem_range_iff m h a, fun r r' h1 h2 h3 h4 => range_unique m h a r r' ⟨h1, h2⟩ ⟨h3, h4⟩⟩,
    fun s hok => ⟨_, rfl, fun r => ?_⟩⟩
  have computed := segment_computed s.control s.metadata (not_fatal_of_ok _ _ hok)
  obtain ⟨count, range, padded, words⟩ := computed.regions r
  refine ⟨count, ?_, ?_⟩
  · rw [respondSeg_seg, segEffects_seg, range]
    omega
  · rw [respondSeg_seg, segEffects_seg, words, padded, wordCount_eq]

end Sys2Proof.Machine
end

section
/-! PROOFS of 42_encoder.md: the closed form of the µ-law function (R131) and its laws (R132). -/

namespace Sys2Proof.Machine

/-! ### The closed form -/

/-- Bias and clamp take every sample into the range of the tiers. -/
theorem mulawMag_bounds (v : Int) : 128 ≤ mulawMag v ∧ mulawMag v < 32768 := by
  unfold mulawMag mulawBias mulawClip
  omega

/-- The number of a magnitude's tier counts its binades above 2^7 (R131). -/
theorem log2_eq_tierNo (mag : Nat) (h : 128 ≤ mag) (h' : mag < 32768) : Nat.log2 mag = tierNo mag + 7 :=
  (Nat.log2_eq_iff (by omega)).mpr (tierNo_range mag h h')

/-- Settles O16: `k` of the closed form is the number of the magnitude's tier, which has the code `k << 4` and the
shift `k + 3`. -/
theorem mulawClosedForm : Obligations.MulawClosedForm := by
  intro x
  obtain ⟨hlow, hhigh⟩ := mulawMag_bounds x.toInt
  have tier : tierNo (mulawMag x.toInt) = Nat.log2 (mulawMag x.toInt) - 7 := by
    rw [log2_eq_tierNo _ hlow hhigh, Nat.add_sub_cancel]
  have hlt := tierNo_lt (mulawMag x.toInt)
  rw [tier] at hlt
  refine ⟨Nat.le_of_lt_succ hlt, ?_⟩
  rw [Nat.shiftLeft_eq]
  exact mulawByte_eq_of_tierNo x _ tier

/-! ### The code as a number -/

/-- The mantissa of a magnitude with its leading bit: four more bits than the 1 in front. -/
theorem mantissa_range (mag : Nat) (h : 128 ≤ mag) (h' : mag < 32768) :
    16 ≤ mag / 2 ^ (tierNo mag + 3) ∧ mag / 2 ^ (tierNo mag + 3) < 32 := by
  obtain ⟨hlow, hhigh⟩ := tierNo_range mag h h'
  have hpos : 0 < 2 ^ (tierNo mag + 3) := Nat.two_pow_pos _
  constructor
  · rw [Nat.le_div_iff_mul_le hpos]
    calc 16 * 2 ^ (tierNo mag + 3) = 2 ^ (tierNo mag + 7) := by ring
      _ ≤ mag := hlow
  · rw [Nat.div_lt_iff_lt_mul hpos]
    calc mag < 2 ^ (tierNo mag + 8) := hhigh
      _ = 32 * 2 ^ (tierNo mag + 3) := by ring

/-- The code rises with the magnitude: from one tier to the next by 16, within a tier by the mantissa (R132). -/
theorem codeNumber_mono (a b : Nat) (h : a ≤ b) : codeNumber a ≤ codeNumber b := by
  have hmag : min (a + 128) 0x7FFF ≤ min (b + 128) 0x7FFF := min_le_min_right _ (Nat.add_le_add_right h 128)
  obtain ⟨hlowA, hhighA⟩ := mantissa_range (min (a + 128) 0x7FFF) (by omega) (by omega)
  obtain ⟨hlowB, hhighB⟩ := mantissa_range (min (b + 128) 0x7FFF) (by omega) (by omega)
  simp only [codeNumber]
  rcases (tierNo_mono _ _ hmag).eq_or_lt with sameTier | laterTier
  · have mantissa := Nat.div_le_div_right (c := 2 ^ (tierNo (min (a + 128) 0x7FFF) + 3)) hmag
    rw [← sameTier] at hlowB hhighB ⊢
    omega
  · omega

/-- A magnitude whose code is `c`, for `c` below 128: one above the least of its mantissa step, so that it is not 0
and can have either sign. -/
def magnitudeOfCode (c : Nat) : Nat := (16 + c % 16) * 2 ^ (c / 16 + 3) + 1 - 128

/-- Every tier and every mantissa is taken (R132). -/
theorem codeNumber_magnitudeOfCode : ∀ c < 128, codeNumber (magnitudeOfCode c) = c := by
  decide

theorem magnitudeOfCode_range : ∀ c < 128, 0 < magnitudeOfCode c ∧ magnitudeOfCode c < 2 ^ 15 := by
  decide

/-- A 16-bit value is the signed value of its sample. -/
theorem toInt_sample (v : Int) (h : -2 ^ 15 ≤ v) (h' : v < 2 ^ 15) : (BitVec.ofInt 16 v).toInt = v :=
  BitVec.toInt_ofInt_eq_self (by decide) h h'

/-- Every byte is the code of a sample: its low seven bits fix a magnitude, and bit 7 the sign (R132). -/
theorem mulawByte_surjective (c : Byte) : ∃ x : Half, mulawByte x = c := by
  have hcode : c.toNat % 128 < 128 := Nat.mod_lt _ (by decide)
  have hc : c.toNat < 256 := c.isLt
  obtain ⟨hpos, hlt⟩ := magnitudeOfCode_range _ hcode
  have hnumber := codeNumber_magnitudeOfCode _ hcode
  by_cases hsign : c.toNat < 128
  · refine ⟨BitVec.ofInt 16 (magnitudeOfCode (c.toNat % 128)), BitVec.eq_of_toNat_eq ?_⟩
    rw [mulawByte_toNat, toInt_sample _ (by omega) (by omega), Int.natAbs_natCast, hnumber, if_neg (by omega)]
    omega
  · refine ⟨BitVec.ofInt 16 (-magnitudeOfCode (c.toNat % 128)), BitVec.eq_of_toNat_eq ?_⟩
    rw [mulawByte_toNat, toInt_sample _ (by omega) (by omega), Int.natAbs_neg, Int.natAbs_natCast, hnumber,
      if_pos (by omega)]
    omega

/-- Bit 7 of a code is the sign of its sample: the rest of the code is below 128. -/
theorem mulawByte_bit7 (x : Half) : (mulawByte x).getLsbD 7 = decide (x.toInt < 0) := by
  have hlt := codeNumber_lt x.toInt.natAbs
  rw [← BitVec.msb_eq_getLsbD_last, BitVec.msb_eq_decide, mulawByte_toNat]
  split <;> simp [*]

/-- The least magnitudes have the least code of their sign. -/
theorem codeNumber_of_small : ∀ a < 8, codeNumber a = 0 := by
  decide

/-- Settles O17: a code is its sign and a number that rises with the magnitude and takes all 128 values; the named
inputs are those of least magnitude, and three that are evaluated. -/
theorem mulawMonotoneAndOnto : Obligations.MulawMonotoneAndOnto := by
  refine ⟨fun x y hx hxy => ?_, fun x y hx hyx => ?_, mulawByte_surjective, mulawByte_bit7, fun x hx hx7 => ?_,
    fun x hx hx1 => ?_, rfl, rfl, rfl⟩
  · rw [mulawByte_toNat, mulawByte_toNat, if_neg (by omega), if_neg (by omega)]
    exact Nat.add_le_add_left (codeNumber_mono _ _ (by omega)) 0
  · rw [mulawByte_toNat, mulawByte_toNat, if_pos (by omega), if_pos (by omega)]
    exact Nat.add_le_add_left (codeNumber_mono _ _ (by omega)) 128
  · apply BitVec.eq_of_toNat_eq
    rw [mulawByte_toNat, if_neg (by omega), codeNumber_of_small _ (by omega)]
    rfl
  · apply BitVec.eq_of_toNat_eq
    rw [mulawByte_toNat, if_pos (by omega), codeNumber_of_small _ (by omega)]
    rfl

end Sys2Proof.Machine
end

section
/-! PROOFS of the machine's steps: a command taken from the port (30_encoding.md R71), waiting (R213, R228), reset
(R220), a host write of the sample buffer (R51, R64), and a command that does not complete (R221, R229). -/

namespace Sys2Proof.Machine

/-! ### Commands and waiting -/

theorem runCommand_of_decode (cmd dat : Word) (i : Instr) (s : State) (h : decode cmd dat = .ok i) :
    runCommand cmd dat s = exec i s := by
  rcases runCommand_cases cmd dat s with ⟨j, hj, hrun⟩ | ⟨why, hj, -⟩
  · rw [h, Decoded.ok.injEq] at hj
    rw [hrun, hj]
  · rw [h] at hj
    cases hj

/-- A pair that the table's word decoder reads as a command decodes to it. -/
theorem decode_of_decodeTableWord (nbits w : Nat) (i : Instr) (h : decodeTableWord nbits w = some i) :
    decode (tableCmd nbits w) (tableDat nbits w) = .ok i := by
  unfold decodeTableWord at h
  split at h
  next j hdecode => rw [hdecode, Option.some.inj h]
  next => cases h

/-- Settles O39: the step of an idle CORE with a command under good conduct in front is `runCommand`, and
`withFetchWord` makes such a state. -/
theorem stepRunsTheDecodedCommand : Obligations.StepRunsTheDecodedCommand := by
  refine ⟨fun s cmd dat rest i hport hidle hdecode => ?_, fun s w i hw => ?_⟩
  · rw [step_command s cmd dat rest hport hidle, runCommand_of_decode cmd dat i _ hdecode]
  · have hdecode := decode_of_decodeTableWord 32 w i hw
    exact (step_command (s.withFetchWord 32 w) _ _ s.port rfl rfl).trans (runCommand_of_decode _ _ i _ hdecode)

/-- Settles O41: the step of an empty port is to wait, and so is that of a busy CORE with a command in front. -/
theorem idleAndBusyWait : Obligations.IdleAndBusyWait := by
  refine ⟨fun s hport => ?_, fun s cmd dat c rest hport hbusy => ?_⟩
  · rw [step, hport]
  · rw [step, hport]
    exact takeEvent_busy cmd dat c rest s hbusy

/-! ### Reset -/

theorem step_reset (s : State) (rest : List HostEvent) (hport : s.port = .reset :: rest) :
    step s = .next (applyReset { s with port := rest }) := by
  rw [step, hport]
  rfl

/-- After a reset STATUS reads 0 (R42). -/
theorem readReg_status_applyReset (s : State) : readReg (applyReset s) .status = 0#32 := by
  refine BitVec.eq_of_getElem_eq fun i hi => ?_
  rw [readReg, statusWord_getElem]
  simp [SegResults.reset, Sticky.clear, Mode.bit, residualBit]

/-- Settles O42: a reset event is `applyReset`, which clears every field that STATUS shows, SEGV among them. -/
theorem resetEventRestoresEverything : Obligations.ResetEventRestoresEverything := by
  intro s rest hport
  refine ⟨step_reset s rest hport, fun ra hra => ?_⟩
  rcases List.mem_cons.mp hra with rfl | hhdr
  · have answer := execRreg_addr .status (applyReset { s with port := rest })
    rw [readReg_status_applyReset] at answer
    exact answer
  · exact execRreg_hdr_of_stale (applyReset { s with port := rest }) rfl ra hhdr

/-! ### Host writes -/

theorem step_writeSample (s : State) (a : Word) (b : Byte) (rest : List HostEvent)
    (hport : s.port = .writeSample a b :: rest) :
    step s = .next { s with port := rest, sb := s.sb.write a.toNat b } := by
  rw [step, hport]
  rfl

/-- Settles O43: the event is a write of the buffer, which reads back, leaves every other address and keeps the
canonical form, since a 32-bit address lies in the buffer. -/
theorem hostWriteReadsBack : Obligations.HostWriteReadsBack := by
  intro s a b rest hport hwf
  have hread := fun k => read_write s.sb 0 a.toNat k b hwf
  exact ⟨_, step_writeSample s a b rest hport, rfl, (hread a.toNat).trans (if_pos rfl),
    fun k hk => (hread k).trans (if_neg hk), wf_write s.sb a.toNat b a.isLt hwf⟩

/-! ### A command that does not complete -/

/-- The step of an idle CORE with a command in front that does not complete is a stall on the way to its result. -/
theorem step_stall (s u : State) (cmd dat : Word) (stable : Bool) (rest : List HostEvent)
    (hport : s.port = .command cmd dat ⟨stable, false⟩ :: rest) (hidle : s.busy = false)
    (hrun : runCommand cmd dat { s with port := rest, sbRacing := !stable } = .next u) :
    step s = .next (stall { s with port := rest } u) := by
  obtain ⟨t, ht, haccept⟩ := acceptCommand_cases cmd dat ⟨stable, false⟩ { s with port := rest }
  obtain rfl : u = t := Host.Outcome.next.inj (hrun.symm.trans ht)
  rw [step, hport]
  exact (takeEvent_idle cmd dat _ rest s hidle).trans haccept

/-- Settles O44: the stall delivers the first of the command's new records, as many as the free value says, and sends
nothing; the reset that follows keeps them and clears the rest. -/
theorem abandonedCommandDeliversAPrefix : Obligations.AbandonedCommandDeliversAPrefix := by
  intro s u cmd dat stable rest hport hidle hrun
  have stalled := step_stall s u cmd dat stable (.reset :: rest) hport hidle hrun
  refine ⟨_, List.take_prefix (Config.deliveredRecords s.freeCount) (newRecords s u),
    ⟨_, stalled, rfl, rfl, rfl⟩, ?_⟩
  rw [runSteps_succ 1 s _ stalled]
  exact runSteps_succ 0 _ _ (step_reset _ rest rfl)

end Sys2Proof.Machine
end

section
/-! PROOFS of 44_sequencer.md and 30_encoding.md section 4: how many records an EXPORT emits against the declared word
counts (R174), and EXPORT against the pseudo-instruction EXPORTM (R81, R175). -/

namespace Sys2Proof.Machine

/-! ### How many records and bytes an EXPORT makes -/

theorem regionBody_bcnt (s : State) (r : Region) (st : PackedStream) :
    (regionBody s r st).bcnt.toNat
      = (st.bcnt.toNat + (s.seg.region r).n.toNat * bytesPerSample s.seg.smode + (s.seg.region r).pad.toNat) % 4 := by
  rw [regionBody_eq, pushAll_bcnt, regionBytes_length, emitHeader, emit_bcnt, Nat.add_assoc st.bcnt.toNat]

/-- Three regions from an empty word: a header each, a word for every fourth byte of all three, and the residue of all
three bytes (R174). -/
theorem threeRegions_counts (s : State) (st : PackedStream) (h : st.bcnt = 0#2) :
    let body := regionBody s .decay (regionBody s .loop (regionBody s .attack st))
    body.out.length = st.out.length + 3 + exportBytes s.seg / 4 ∧ body.bcnt.toNat = exportBytes s.seg % 4 := by
  have hbcnt : st.bcnt.toNat = 0 := by rw [h]; rfl
  simp only [regionBody_out_length, regionBody_bcnt, hbcnt, exportBytes, region_attack, region_loop, region_decay]
  omega

/-- The region-aligned count and the words of a computed region (R120). -/
theorem RegionRegs.Computed.aligned {m : Mode} {g : RegionRegs} (h : g.Computed m) :
    (g.n.toNat + g.pad.toNat) % 128 = 0
      ∧ g.wc.toNat = (g.n.toNat + g.pad.toNat) * bytesPerSample m / 4 + 1 := by
  rw [h.words, h.padded]
  exact ⟨add_padCount_mod _, wordCount_eq _ m⟩

/-- In µ-law mode the declared total is the number of records, and no byte is left over (R174). -/
theorem exportBytes_mulaw (g : SegResults) (h : g.Computed) (hm : g.smode = .mulaw) :
    g.wcTot.toNat = 3 + exportBytes g / 4 ∧ exportBytes g % 4 = 0 := by
  obtain ⟨halignA, hwordsA⟩ := (h.regions .attack).aligned
  obtain ⟨halignL, hwordsL⟩ := (h.regions .loop).aligned
  obtain ⟨halignD, hwordsD⟩ := (h.regions .decay).aligned
  simp only [exportBytes, h.total, hm, bytesPerSample, region_attack, region_loop, region_decay] at *
  omega

/-- In PCM mode a pad sample counts as two declared bytes and is emitted as one, so the declared total is greater by
the words of the pads' bytes (R174). -/
theorem exportBytes_pcm (g : SegResults) (h : g.Computed) (hm : g.smode = .pcm) :
    g.wcTot.toNat
      = 3 + exportBytes g / 4 + (g.attack.pad.toNat + g.loop.pad.toNat + g.decay.pad.toNat + 3) / 4 := by
  obtain ⟨halignA, hwordsA⟩ := (h.regions .attack).aligned
  obtain ⟨halignL, hwordsL⟩ := (h.regions .loop).aligned
  obtain ⟨halignD, hwordsD⟩ := (h.regions .decay).aligned
  simp only [exportBytes, h.total, hm, bytesPerSample, region_attack, region_loop, region_decay] at *
  omega

/-- In µ-law mode a region's own bytes make its declared words but for the header (R174). -/
theorem packWords_regionBytes_mulaw (s : State) (r : Region) (h : s.seg.Computed) (hm : s.seg.smode = .mulaw) :
    (packWords (regionBytes s r)).length = (s.seg.region r).wc.toNat - 1 := by
  obtain ⟨-, hwords⟩ := (h.regions r).aligned
  rw [packWords_length, regionBytes_length, hwords, hm]
  simp only [bytesPerSample]
  omega

/-- No pad byte at all means no pad in any region. -/
theorem padWords_eq_zero_iff (g : SegResults) :
    (g.attack.pad.toNat + g.loop.pad.toNat + g.decay.pad.toNat + 3) / 4 = 0 ↔ ∀ r, (g.region r).pad = 0#32 := by
  constructor
  · intro h r
    apply BitVec.eq_of_toNat_eq
    cases r <;> simp only [region_attack, region_loop, region_decay, BitVec.toNat_ofNat] <;> omega
  · intro h
    have hA := h .attack
    have hL := h .loop
    have hD := h .decay
    simp only [region_attack, region_loop, region_decay] at hA hL hD
    rw [hA, hL, hD]
    rfl

/-- The records and the residue of EXPORT's three regions, by the segmentation it makes (R174). -/
theorem exportBody_counts (s : State) :
    (exportBody (segEffects (clearEffects s))).out.length
        = s.stream.out.length + 3 + exportBytes (segmentOf s.control s.metadata) / 4
      ∧ (exportBody (segEffects (clearEffects s))).bcnt.toNat = exportBytes (segmentOf s.control s.metadata) % 4 := by
  rw [exportBody_segEffects]
  exact threeRegions_counts (withSegment s) s.stream.clear rfl

/-- Settles O32: the three regions of the EXPORT make their records and their residue, and the declared total of a
computed segmentation is compared with them mode by mode. -/
theorem exportRecordCount : Obligations.ExportRecordCount := by
  intro s hok
  rcases execExport_cases s with ⟨-, ran⟩ | ⟨hrefused, -⟩
  · have computed := segment_computed s.control s.metadata (not_fatal_of_ok _ _ hok)
    obtain ⟨hlen, hbcnt⟩ := exportBody_counts s
    refine ⟨_, ran, hlen, hbcnt, fun hm => ?_, fun hm => ?_⟩ <;> simp only [respond_stream, respond_seg]
    · obtain ⟨htotal, hresidue⟩ := exportBytes_mulaw _ computed hm
      exact ⟨by omega, BitVec.eq_of_toNat_eq (hbcnt.trans hresidue),
        fun r => packWords_regionBytes_mulaw _ r computed hm⟩
    · have htotal := exportBytes_pcm _ computed hm
      refine ⟨by omega, Iff.trans ?_ (padWords_eq_zero_iff _)⟩
      omega
  · rw [hok] at hrefused
    cases hrefused

/-! ### EXPORT against EXPORTM -/

/-- The next of several commands waiting at an idle port, with a stable buffer, is run (R71). -/
theorem step_transfers_cons (i : Instr) (is : List Instr) (rest : List HostEvent) (s : State) (hidle : s.busy = false)
    (hstable : s.sbRacing = false) :
    step { s with port := transfers (i :: is) ++ rest } = exec i { s with port := transfers is ++ rest } := by
  refine (step_transfer i (decodeOfEncode i) { s with port := transfers (i :: is) ++ rest }
    (transfers is ++ rest) rfl hidle).trans ?_
  rw [← hstable]

/-- The state after a REGION past the readiness check: its body and its response (R170). -/
def afterRegion (r : Region) (s : State) : State :=
  complete (recordsSince s.stream (regionBody s r s.stream)) { s with stream := regionBody s r s.stream }

/-- A REGION past the readiness check, whatever waits at the port behind it. -/
theorem exec_region_of_ready (r : Region) (s : State) (port : List HostEvent) (h : s.seg.ready = true) :
    exec (.region r) { s with port := port } = .next { afterRegion r s with port := port } := by
  have body : regionBody { s with port := port } r s.stream = regionBody s r s.stream :=
    regionBody_congr _ _ r _ rfl rfl fun a => memRead_congr _ _ a rfl rfl rfl
  rw [afterRegion, ← body]
  exact congrArg Host.Outcome.next (whenReady_of_ready { s with port := port } _ h)

/-- The bodies of several regions, one after the other over one packer. -/
def regionBodies (s : State) (rs : List Region) (st : PackedStream) : PackedStream :=
  rs.foldl (fun st r => regionBody s r st) st

/-- EXPORT's body is that of the three regions in their processing order (R172). -/
theorem exportBody_eq_regionBodies (s : State) : exportBody s = regionBodies s allRegions s.stream := rfl

/-- The bodies read neither the packer nor the responses of the state they are evaluated in. -/
theorem regionBodies_congr (s u : State) (rs : List Region) (st : PackedStream) (hseg : u.seg = s.seg)
    (hparams : u.params = s.params) (hsb : u.sb = s.sb) (hracing : u.sbRacing = s.sbRacing)
    (hfree : u.freeCount = s.freeCount) : regionBodies u rs st = regionBodies s rs st := by
  have same : ∀ r st, regionBody u r st = regionBody s r st := fun r st =>
    regionBody_congr s u r st hseg hparams fun a => memRead_congr s u a hsb hracing hfree
  simp only [regionBodies, same]

/-- REGION commands waiting at an idle port run one per step: their bodies follow one another, with a response each.
-/
theorem runSteps_regions (rs : List Region) (rest : List HostEvent) (s : State) (hidle : s.busy = false)
    (hstable : s.sbRacing = false) (hready : s.seg.ready = true) :
    ∃ rsps, rsps.length = rs.length
      ∧ runSteps rs.length { s with port := transfers (rs.map .region) ++ rest } = .next
          { s with port := rest, stream := regionBodies s rs s.stream, rsps := s.rsps ++ rsps } := by
  induction rs generalizing s with
  | nil => exact ⟨[], rfl, by simp [runSteps, transfers, regionBodies]⟩
  | cons r rs ih =>
    have firstStep := (step_transfers_cons (.region r) (rs.map .region) rest s hidle hstable).trans
      (exec_region_of_ready r s _ hready)
    obtain ⟨rsps, hlen, others⟩ := ih (afterRegion r s) hidle hstable hready
    rw [regionBodies_congr s (afterRegion r s) rs _ rfl rfl rfl rfl rfl] at others
    refine ⟨⟨recordsSince s.stream (regionBody s r s.stream), false, 0#4⟩ :: rsps, congrArg Nat.succ hlen, ?_⟩
    rw [List.append_cons]
    exact (runSteps_succ rs.length _ _ firstStep).trans others

/-- REGION commands waiting at an idle port without ready results are NOTREADY, one per step (R203). -/
theorem runSteps_regions_notReady (rs : List Region) (rest : List HostEvent) (s : State) (hidle : s.busy = false)
    (hstable : s.sbRacing = false) (hready : ¬s.seg.ready = true) :
    runSteps rs.length { s with port := transfers (rs.map .region) ++ rest } = .next
      { s with
        port := rest
        sticky := { s.sticky with nrdy := s.sticky.nrdy || !rs.isEmpty }
        rsps := s.rsps ++ List.replicate rs.length ⟨0#32, true, 2#4⟩ } := by
  induction rs generalizing s with
  | nil => simp [runSteps, transfers]
  | cons r rs ih =>
    have firstStep := (step_transfers_cons (.region r) (rs.map .region) rest s hidle hstable).trans
      (congrArg Host.Outcome.next
        (whenReady_of_not { s with port := transfers (rs.map .region) ++ rest } _ hready))
    have others := ih (raiseError .notReady s) hidle hstable hready
    refine ((runSteps_succ rs.length _ _ firstStep).trans others).trans ?_
    simp [List.replicate_succ, Code.bits]

/-- The state after the CLR and the SEG of EXPORTM (R81). -/
def afterClrSeg (s : State) : State := respondSeg (segEffects (complete 0#32 (clearEffects s)))

/-- The first two commands of EXPORTM have the effects that EXPORT begins with, and a response each (R81, R172). -/
theorem runSteps_exportM (rest : List HostEvent) (s : State) (hidle : s.busy = false) (hstable : s.sbRacing = false) :
    runSteps 5 { s with port := transfers pseudoExportM ++ rest }
      = runSteps 3 { afterClrSeg s with port := transfers (allRegions.map .region) ++ rest } := by
  have clrStep := step_transfers_cons .clr [.seg, .region .attack, .region .loop, .region .decay] rest s hidle hstable
  have segStep := step_transfers_cons .seg [.region .attack, .region .loop, .region .decay] rest
    (complete 0#32 (clearEffects s)) hidle hstable
  exact (runSteps_succ 4 _ _ clrStep).trans (runSteps_succ 3 _ _ segStep)

theorem afterClrSeg_rsps (s : State) :
    (afterClrSeg s).rsps = s.rsps ++ [⟨0#32, false, 0#4⟩,
      ⟨(segmentOf s.control s.metadata).wcTot, !(segmentOf s.control s.metadata).ok,
        (validationCode (segmentOf s.control s.metadata)).bits⟩] :=
  List.append_assoc s.rsps [_] [_]

/-- The bodies that follow CLR and SEG are those of EXPORT (R172, R175). -/
theorem regionBodies_afterClrSeg (s : State) :
    regionBodies (afterClrSeg s) allRegions (afterClrSeg s).stream = exportBody (segEffects (clearEffects s)) :=
  (regionBodies_congr (segEffects (clearEffects s)) (afterClrSeg s) allRegions _ rfl rfl rfl rfl rfl).trans
    (exportBody_eq_regionBodies _).symm

/-- Settles O33: after CLR and SEG the three REGIONs of EXPORTM run the bodies that EXPORT runs, from the same packer.
-/
theorem exportEqualsExportM : Obligations.ExportEqualsExportM := by
  intro s rest hidle hstable hok
  rcases execExport_cases s with ⟨-, ran⟩ | ⟨hrefused, -⟩
  · obtain ⟨rsps, hlen, run⟩ := runSteps_regions allRegions rest (afterClrSeg s) hidle hstable
      ((ready_iff _).mpr ⟨rfl, hok⟩)
    have all := (runSteps_exportM rest s hidle hstable).trans run
    rw [regionBodies_afterClrSeg, afterClrSeg_rsps, List.append_assoc] at all
    exact ⟨_, _ :: _ :: rsps, ran, rfl, congrArg (· + 2) hlen, all⟩
  · rw [hok] at hrefused
    cases hrefused

/-- Settles O57: after CLR and SEG the results are not ready, so the three REGIONs of EXPORTM are refused. -/
theorem exportMNotReadyWhenRefused : Obligations.ExportMNotReadyWhenRefused := by
  intro s rest hidle hstable hrefused
  rcases execExport_cases s with ⟨hok, -⟩ | ⟨-, refused⟩
  · rw [hok] at hrefused
    cases hrefused
  · have notReady : ¬(afterClrSeg s).seg.ready = true := by
      rw [ready_iff]
      exact fun h => absurd (h.2.symm.trans hrefused) (by decide)
    have run := runSteps_regions_notReady allRegions rest (afterClrSeg s) hidle hstable notReady
    have all := (runSteps_exportM rest s hidle hstable).trans run
    rw [afterClrSeg_rsps, hrefused, List.append_assoc] at all
    exact ⟨_, _, refused, rfl, rfl, all⟩

end Sys2Proof.Machine
end

section
/-! PROOFS of the whole-machine rules: what each command can answer, said once, and from it the responses
(60_exceptions.md R200, R201, R206), the sticky bits (R37), the groups of registers (10_state.md), the sample buffer
(R50, R52) and OUT (R38). -/

namespace Sys2Proof.Machine

/-! ### What the packer's operations can do -/

/-- The packers that pushes and headers lead to from `st`, in a state whose registers are those of `s`. A header is
emitted only past the readiness check. -/
inductive PackedFrom (s : State) (st : PackedStream) : PackedStream → Prop
  | start : PackedFrom s st st
  | push {u : PackedStream} (b : Byte) (h : PackedFrom s st u) : PackedFrom s st (push b u)
  | header {u : PackedStream} (r : Region) (hready : s.seg.ready = true) (h : PackedFrom s st u) :
      PackedFrom s st (emitHeader s r u)

namespace PackedFrom

variable {s : State} {st u : PackedStream}

theorem after_pushAll (bs : List Byte) (h : PackedFrom s st u) : PackedFrom s st (pushAll bs u) :=
  pushAll_keeps (fun b _ hu => hu.push b) bs u h

theorem after_pushPad (r : Region) (h : PackedFrom s st u) : PackedFrom s st (pushPad s r u) := by
  rw [pushPad, pushZeros_eq]
  exact h.after_pushAll _

theorem after_regionBody (r : Region) (hready : s.seg.ready = true) (h : PackedFrom s st u) :
    PackedFrom s st (regionBody s r u) := by
  rw [regionBody_eq]
  exact (h.header r hready).after_pushAll _

theorem out_grows (h : PackedFrom s st u) : st.out <+: u.out := by
  induction h with
  | start => exact List.prefix_rfl
  | push b _ ih =>
    obtain ⟨recs, hout, -, -⟩ := push_out b _
    exact ih.trans ⟨recs, hout.symm⟩
  | header r _ _ ih => exact ih.trans ⟨_, rfl⟩

end PackedFrom

/-! ### What a command can do -/

/-- The commands that answer a value and write nothing: NOP, RREG, PADQ, WCQ and ENCQ. -/
def isQuery : Instr → Bool
  | .nop | .rreg _ | .padq _ | .wcq _ | .encq _ => true
  | _ => false

/-- The commands that write nothing but the packer and OUT: PCM, MULAW, PUSHB, PAD, HDR and REGION. -/
def isPacking : Instr → Bool
  | .pcm _ | .mulaw _ | .pushb _ | .pad _ | .hdr _ | .region _ => true
  | _ => false

/-- What each command can answer from `s`. -/
inductive Answers (s : State) : Instr → State → Prop
  /-- ILLEGAL or NOTREADY, of which CLR, SEG and EXPORT give neither (R202, R203). -/
  | failed (i : Instr) (e : Code) (hcode : e = .illegal ∨ e = .notReady) (hclr : i ≠ .clr) (hseg : i ≠ .seg)
      (hrun : i ≠ .exportRun) : Answers s i (raiseError e s)
  | queried (i : Instr) (d : Word) (hquery : isQuery i = true) : Answers s i (complete d s)
  | packed (i : Instr) (d : Word) (st : PackedStream) (hpacking : isPacking i = true)
      (hst : PackedFrom s s.stream st) : Answers s i (complete d { s with stream := st })
  | cleared : Answers s .clr (complete 0#32 (clearEffects s))
  | wrote (ra : RegAddr) (dat : Word) (r : RegName) :
      Answers s (.wreg ra dat) (complete 0#32 (invalidateSeg (writeReg dat s r)))
  | segmented : Answers s .seg (respondSeg (segEffects s))
  | exported (st : PackedStream) (hok : (segmentOf s.control s.metadata).ok = true)
      (hst : PackedFrom (withSegment s) s.stream.clear st) :
      Answers s .exportRun
        (respond (segmentOf s.control s.metadata).wcTot false (validationCode (segmentOf s.control s.metadata))
          { s with seg := segmentOf s.control s.metadata, stream := st, sticky := ⟨false, false, true⟩ })
  | refused (hok : (segmentOf s.control s.metadata).ok = false) :
      Answers s .exportRun
        (respond 0#32 true (validationCode (segmentOf s.control s.metadata)) (segEffects (clearEffects s)))

/-- A packing command behind the readiness check has its effect or is NOTREADY (R203). -/
theorem answers_whenReady (s : State) (i : Instr) (d : Word) (st : PackedStream) (hpacking : isPacking i = true)
    (hst : s.seg.ready = true → PackedFrom s s.stream st) :
    Answers s i (whenReady s (complete d { s with stream := st })) := by
  rcases whenReady_cases s (complete d { s with stream := st }) with ⟨hready, h⟩ | ⟨-, h⟩
  · rw [h]
    exact .packed i d st hpacking (hst hready)
  · rw [h]
    refine .failed i .notReady (.inr rfl) ?_ ?_ ?_ <;> rintro rfl <;> cases hpacking

/-- Every command answers, and in one of these ways. -/
theorem exec_answers (i : Instr) (s : State) : ∃ t, exec i s = .next t ∧ Answers s i t := by
  cases i with
  | nop => exact ⟨_, rfl, .queried .nop _ rfl⟩
  | clr => exact ⟨_, rfl, .cleared⟩
  | wreg ra dat =>
    rcases execWreg_cases ra dat s with ⟨-, h⟩ | ⟨r, -, -, h⟩
    · exact ⟨_, h, .failed _ .illegal (.inl rfl) nofun nofun nofun⟩
    · exact ⟨_, h, .wrote ra dat r⟩
  | rreg ra =>
    rcases execRreg_cases ra s with ⟨-, h⟩ | ⟨r, -, h⟩
    · exact ⟨_, h, .failed _ .illegal (.inl rfl) nofun nofun nofun⟩
    · exact ⟨_, h, .queried _ _ rfl⟩
  | seg => exact ⟨_, rfl, .segmented⟩
  | padq n => exact ⟨_, rfl, .queried (.padq n) _ rfl⟩
  | wcq n => exact ⟨_, rfl, .queried (.wcq n) _ rfl⟩
  | pcm x => exact ⟨_, rfl, .packed (.pcm x) _ _ rfl ((PackedFrom.start.push _).push _)⟩
  | mulaw x => exact ⟨_, rfl, .packed (.mulaw x) _ _ rfl (PackedFrom.start.push _)⟩
  | encq x => exact ⟨_, rfl, .queried (.encq x) _ rfl⟩
  | pushb b => exact ⟨_, rfl, .packed (.pushb b) _ _ rfl (PackedFrom.start.push _)⟩
  | pad r => exact ⟨_, rfl, answers_whenReady s (.pad r) _ _ rfl fun _ => PackedFrom.start.after_pushPad r⟩
  | hdr r => exact ⟨_, rfl, answers_whenReady s (.hdr r) _ _ rfl fun hready => PackedFrom.start.header r hready⟩
  | region r =>
    exact ⟨_, rfl, answers_whenReady s (.region r) _ _ rfl fun hready => PackedFrom.start.after_regionBody r hready⟩
  | exportRun =>
    rcases execExport_cases s with ⟨hok, h⟩ | ⟨hok, h⟩
    · refine ⟨_, h, .exported _ hok ?_⟩
      have hready : (withSegment s).seg.ready = true := (ready_iff _).mpr ⟨rfl, hok⟩
      rw [exportBody_segEffects]
      exact ((PackedFrom.start.after_regionBody _ hready).after_regionBody _ hready).after_regionBody _ hready
    · exact ⟨_, h, .refused hok⟩

theorem answers_of_exec {i : Instr} {s t : State} (h : exec i s = .next t) : Answers s i t := by
  obtain ⟨u, hu, answers⟩ := exec_answers i s
  rw [h] at hu
  cases hu
  exact answers

/-- A transferred pair that does not decode is ILLEGAL; one that does is answered as its command (R71, R202). -/
theorem answers_of_runCommand {cmd dat : Word} {s t : State} (h : runCommand cmd dat s = .next t) :
    (∃ i, Answers s i t) ∨ t = raiseError .illegal s := by
  rcases runCommand_cases cmd dat s with ⟨i, -, hrun⟩ | ⟨why, -, hrun⟩ <;> rw [hrun] at h
  · exact .inl ⟨i, answers_of_exec h⟩
  · exact .inr (Host.Outcome.next.inj h).symm

/-! ### OUT -/

theorem Answers.out_grows {s t : State} {i : Instr} (h : Answers s i t) : s.stream.out <+: t.stream.out := by
  cases h with
  | failed | queried | cleared | segmented | refused => exact List.prefix_rfl
  | packed _ d st _ hst => exact hst.out_grows
  | wrote ra dat r => simp
  | exported st _ hst => exact hst.out_grows

/-- Settles O47: a command only appends to OUT, a stall appends the first of what its command would have, and waiting,
a host write and a reset leave OUT alone. -/
theorem outputOnlyGrows : Obligations.OutputOnlyGrows := by
  intro s t h
  rcases step_cases s t h with rfl | ⟨cmd, dat, c, rest, u, -, -, hrun, rfl⟩ | ⟨a, b, rest, -, rfl⟩ | ⟨rest, -, rfl⟩
  · exact List.prefix_rfl
  · have grown : s.stream.out <+: u.stream.out := by
      rcases answers_of_runCommand hrun with ⟨i, answers⟩ | rfl
      · exact answers.out_grows
      · exact List.prefix_rfl
    cases c.completes
    · exact List.prefix_append _ _
    · cases c.sbStable <;> exact grown
  · exact List.prefix_rfl
  · exact List.prefix_rfl

/-! ### Responses -/

theorem code_bits_lt (e : Code) : e.bits.toNat < 8 := by
  cases e <;> decide

theorem legal_success (d : Word) : Response.Legal ⟨d, false, 0#4⟩ :=
  ⟨code_bits_lt .none, nofun, fun _ => .inl rfl⟩

/-- Only NONE has the value 0 (R201). -/
theorem code_bits_ne_zero (e : Code) (h : e ≠ .none) : e.bits ≠ 0#4 := by
  cases e with
  | none => exact absurd rfl h
  | _ => decide

theorem legal_error (d : Word) (e : Code) (h : e ≠ .none) : Response.Legal ⟨d, true, e.bits⟩ :=
  ⟨code_bits_lt e, fun _ => code_bits_ne_zero e h, nofun⟩

/-- With OK = 1 SEG's code is none or a warning (R117). -/
theorem legal_segment_of_ok (d : Word) (c : Control) (m : Metadata) (hok : (segmentOf c m).ok = true) :
    Response.Legal ⟨d, false, (validationCode (segmentOf c m)).bits⟩ := by
  refine ⟨code_bits_lt _, nofun, fun _ => ?_⟩
  rw [validationCode_bits_of_ok c m hok]
  split_ifs
  · exact .inr (.inl rfl)
  · exact .inr (.inr rfl)
  · exact .inl rfl

/-- Where SEG finds no fault, OK is 1 (R117). -/
theorem validationCode_ne_none (c : Control) (m : Metadata) (hok : (segmentOf c m).ok = false) :
    validationCode (segmentOf c m) ≠ .none := by
  intro hnone
  have clean : orderViolated m = false ∧ malformedBit m = false ∧ lengthBit m = false ∧ loopLenBit m = false
      ∧ endLoopBit m = false := by
    unfold validationCode at hnone
    split_ifs at hnone
    simp_all
  obtain ⟨horder, hmalf, hlen, hloop, hend⟩ := clean
  have := (okBit_eq_true c m).mpr ⟨⟨horder, hmalf, hlen⟩, .inl ⟨hloop, hend⟩⟩
  rw [segment_ok, this] at hok
  cases hok

/-- The response of SEG is legal on both sides of OK (R200, R201). -/
theorem legal_segment (d : Word) (c : Control) (m : Metadata) :
    Response.Legal ⟨d, !(segmentOf c m).ok, (validationCode (segmentOf c m)).bits⟩ := by
  cases hok : (segmentOf c m).ok
  · exact legal_error d _ (validationCode_ne_none c m hok)
  · exact legal_segment_of_ok d c m hok

/-- Every command sends one response, a legal one. -/
theorem Answers.responds {s t : State} {i : Instr} (h : Answers s i t) :
    ∃ r : Response, t.rsps = s.rsps ++ [r] ∧ r.Legal := by
  cases h with
  | failed _ e hcode => exact ⟨_, rfl, legal_error _ e (by rcases hcode with rfl | rfl <;> decide)⟩
  | queried d | packed d | cleared => exact ⟨_, rfl, legal_success _⟩
  | wrote ra dat r => exact ⟨_, by rw [complete_rsps, invalidateSeg_rsps, writeReg_rsps], legal_success _⟩
  | segmented => exact ⟨_, rfl, legal_segment _ _ _⟩
  | exported st hok => exact ⟨_, rfl, legal_segment_of_ok _ _ _ hok⟩
  | refused hok => exact ⟨_, rfl, legal_error _ _ (validationCode_ne_none _ _ hok)⟩

/-- Settles O48: whichever way a command answers, it sends one legal response. -/
theorem everyCommandAnswersOnce : Obligations.EveryCommandAnswersOnce := by
  intro i s
  obtain ⟨t, hexec, answers⟩ := exec_answers i s
  obtain ⟨r, hrsps, legal⟩ := answers.responds
  exact ⟨t, r, hexec, hrsps, legal.code, legal.error, legal.warning⟩

/-- The last response is read off the responses. -/
theorem response_eq_of_append {rs : List Response} {q r : Response} (h : rs ++ [q] = rs ++ [r]) : r = q :=
  (List.singleton_inj.mp (List.append_cancel_left h)).symm

/-- Settles O49: of the answers of a command other than SEG and EXPORT only `raiseError` carries an error, and it sets
the sticky bit of its code alone. -/
theorem failingCommandChangesNothingElse : Obligations.FailingCommandChangesNothingElse := by
  intro i s t r hexec hrsps herr hseg hrun
  cases answers_of_exec hexec with
  | failed _ e hcode =>
    obtain rfl := response_eq_of_append hrsps
    rcases hcode with rfl | rfl
    · exact .inl ⟨rfl, rfl⟩
    · exact .inr ⟨rfl, rfl⟩
  | queried | packed | cleared =>
    obtain rfl := response_eq_of_append hrsps
    cases herr
  | wrote ra dat r =>
    rw [complete_rsps, invalidateSeg_rsps, writeReg_rsps] at hrsps
    obtain rfl := response_eq_of_append hrsps
    cases herr
  | segmented => exact absurd rfl hseg
  | exported | refused => exact absurd rfl hrun

/-! ### Sticky bits -/

/-- ILL and NRDY record the code of a failing command's response (R37, R206). -/
theorem stickySet_of_failed (k : Sticky) (e : Code) (hcode : e = .illegal ∨ e = .notReady) :
    k.set e = ⟨k.ill || decide (e.bits = 1#4), k.nrdy || decide (e.bits = 2#4), k.done⟩ := by
  rcases hcode with rfl | rfl <;> simp [Code.bits]

/-- SEG's code is never ILLEGAL or NOTREADY (R205). -/
theorem validationCode_bits_ne (g : SegResults) : (validationCode g).bits ≠ 1#4 ∧ (validationCode g).bits ≠ 2#4 := by
  rw [validationCode_bits]
  split_ifs <;> decide

/-- A command other than CLR, SEG and EXPORT keeps DONE, and adds to ILL and NRDY what its response says (R37). -/
theorem Answers.sticky_eq {s t : State} {i : Instr} (h : Answers s i t) (r : Response) (hrsps : t.rsps = s.rsps ++ [r])
    (hclr : i ≠ .clr) (hseg : i ≠ .seg) (hrun : i ≠ .exportRun) :
    t.sticky = ⟨s.sticky.ill || decide (r.code = 1#4), s.sticky.nrdy || decide (r.code = 2#4), s.sticky.done⟩ := by
  cases h with
  | failed _ e hcode =>
    obtain rfl := response_eq_of_append hrsps
    exact stickySet_of_failed s.sticky e hcode
  | queried | packed =>
    obtain rfl := response_eq_of_append hrsps
    simp [Code.bits]
  | wrote ra dat r =>
    rw [complete_rsps, invalidateSeg_rsps, writeReg_rsps] at hrsps
    obtain rfl := response_eq_of_append hrsps
    simp
  | cleared => exact absurd rfl hclr
  | segmented => exact absurd rfl hseg
  | exported | refused => exact absurd rfl hrun

/-- Settles O50: CLR, SEG and EXPORT write the bits that the statement names, and every other command records its
response. -/
theorem stickyBitsSetAndCleared : Obligations.StickyBitsSetAndCleared := by
  intro i s t r hexec hrsps
  cases i with
  | clr =>
    obtain rfl := Host.Outcome.next.inj hexec
    exact ⟨rfl, rfl, rfl⟩
  | seg =>
    obtain rfl := Host.Outcome.next.inj hexec
    obtain rfl := response_eq_of_append hrsps
    obtain ⟨hillegal, hnotReady⟩ := validationCode_bits_ne (segmentOf s.control s.metadata)
    simp [hillegal, hnotReady]
  | exportRun =>
    rcases execExport_cases s with ⟨hok, ran⟩ | ⟨hok, ran⟩
    · obtain rfl := Host.Outcome.next.inj (hexec.symm.trans ran)
      exact ⟨rfl, rfl, hok.symm⟩
    · obtain rfl := Host.Outcome.next.inj (hexec.symm.trans ran)
      exact ⟨rfl, rfl, hok.symm⟩
  | _ =>
    rw [(answers_of_exec hexec).sticky_eq r hrsps nofun nofun nofun]
    exact ⟨rfl, rfl, rfl⟩

/-! ### What no command writes, and which commands write which registers -/

/-- No command writes the buffer, the parameters or the port. -/
theorem Answers.frame {s t : State} {i : Instr} (h : Answers s i t) :
    t.sb = s.sb ∧ t.params = s.params ∧ t.port = s.port ∧ t.busy = s.busy ∧ t.sbRacing = s.sbRacing
      ∧ t.freeCount = s.freeCount := by
  cases h with
  | wrote ra dat r => simp
  | _ => exact ⟨rfl, rfl, rfl, rfl, rfl, rfl⟩

/-- Settles O51: the buffer is the same, and so reads the same. -/
theorem commandsNeverWriteTheBuffer : Obligations.CommandsNeverWriteTheBuffer := by
  intro i s t hexec
  have frame := (answers_of_exec hexec).frame
  exact ⟨fun a => by rw [frame.1], frame⟩

/-- Settles O52: of the answers only a write changes CTRL or the metadata, only a write, SEG and EXPORT the segmenter
results, of which a write clears two bits, and only packing commands, CLR and EXPORT the packer. -/
theorem registerGroupsWrittenOnlyBy : Obligations.RegisterGroupsWrittenOnlyBy := by
  intro i s t hexec
  cases answers_of_exec hexec with
  | failed | queried => exact ⟨fun _ => ⟨rfl, rfl⟩, fun _ _ => ⟨rfl, fun _ => ⟨rfl, rfl⟩⟩, fun _ => rfl⟩
  | packed _ d st hpacking =>
    refine ⟨fun _ => ⟨rfl, rfl⟩, fun _ _ => ⟨rfl, fun _ => ⟨rfl, rfl⟩⟩, fun hsilent => ?_⟩
    cases i with
    | pcm | mulaw | pushb | pad | hdr | region => exact hsilent.elim
    | _ => cases hpacking
  | cleared => exact ⟨fun _ => ⟨rfl, rfl⟩, fun _ _ => ⟨rfl, fun _ => ⟨rfl, rfl⟩⟩, False.elim⟩
  | wrote ra dat r =>
    refine ⟨fun h => absurd rfl (h ra dat), fun _ _ => ⟨by simp, fun h => absurd rfl (h ra dat)⟩, fun _ => by simp⟩
  | segmented => exact ⟨fun _ => ⟨rfl, rfl⟩, fun h => absurd rfl h, fun _ => rfl⟩
  | exported | refused => exact ⟨fun _ => ⟨rfl, rfl⟩, fun _ h => absurd rfl h, False.elim⟩

end Sys2Proof.Machine
end

section
/-! PROOFS of the invariant of the machine: the reset state meets it and every step keeps it (10_state.md sections 3
to 5, 41_segmenter.md section 5, 60_exceptions.md section 1, 70_reset_and_hazards.md section 2). -/

namespace Sys2Proof.Machine

/-! ### The records -/

theorem region_bits_ne (r : Region) : r.bits ≠ 3#2 := by
  cases r <;> decide

/-- A header record is legal: a region's index is never 3, and a count below 2^24 leaves the tag as it is (R38, R156).
-/
theorem legal_headerRecord (s : State) (r : Region) (l : BitVec 3) (hn : (s.seg.region r).n.toNat < 2 ^ 24) :
    (headerRecord s r l).Legal s.params where
  data := nofun
  region := region_bits_ne r
  tag _ := by
    rw [headerRecord, headerWord_tag _ _ hn, formatTag_eq_ite]
    split_ifs
    · exact .inr rfl
    · exact .inl rfl
  line _ hline := by rw [headerRecord, hline, Bool.false_and]

/-- A DATA record of region index 0 is legal (R38). -/
theorem legal_dataRecord (p : Params) (r : OutRecord) (hkind : r.kind = .data) (hrg : r.rg = 0#2) : r.Legal p where
  data _ := hrg
  region := by rw [hrg]; decide
  tag h := by rw [hkind] at h; cases h
  line h := by rw [hkind] at h; cases h

/-- The packer's operations keep the bits of ACC at and above `8 * BCNT` zero (R34). -/
theorem PackedFrom.acc_lt {s : State} {st u : PackedStream} (h : PackedFrom s st u)
    (hst : st.acc.toNat < 2 ^ (8 * st.bcnt.toNat)) : u.acc.toNat < 2 ^ (8 * u.bcnt.toNat) := by
  induction h with
  | start => exact hst
  | push b _ ih => exact push_acc b _ ih
  | header r _ _ ih => exact ih

/-- The packer's operations append legal records, where ready results have counts below 2^24. -/
theorem PackedFrom.records_legal {s : State} {st u : PackedStream} (h : PackedFrom s st u)
    (hn : s.seg.ready = true → ∀ r, (s.seg.region r).n.toNat < 2 ^ 24) (hst : ∀ q ∈ st.out, q.Legal s.params) :
    ∀ q ∈ u.out, q.Legal s.params := by
  induction h with
  | start => exact hst
  | push b _ ih =>
    obtain ⟨recs, hout, -, hdata⟩ := push_out b _
    rw [hout]
    intro q hq
    rcases List.mem_append.mp hq with hold | hnew
    · exact ih q hold
    · exact legal_dataRecord _ q (hdata q hnew).1 (hdata q hnew).2
  | header r hready _ ih =>
    rw [emitHeader_out]
    intro q hq
    rcases List.mem_append.mp hq with hold | hnew
    · exact ih q hold
    · rw [List.mem_singleton.mp hnew]
      exact legal_headerRecord s r _ (hn hready r)

/-! ### The segmenter results -/

/-- The part of the invariant that speaks of the segmenter results (R27, R30 to R32, R37, R224). -/
structure ResultsSound (c : Control) (m : Metadata) (g : SegResults) (done : Bool) : Prop where
  derived : g.Blank ∨ g.Computed
  okValid : g.ok = true → g.segv = true
  fresh : g.segv = true → g = segmentOf c m
  doneComputed : done = true → g.Computed

/-- Ready results are those of a SEG with OK = 1, so they are computed. -/
theorem ResultsSound.computed_of_ready {c : Control} {m : Metadata} {g : SegResults} {done : Bool}
    (h : ResultsSound c m g done) (hready : g.ready = true) : g.Computed := by
  obtain ⟨hsegv, hok⟩ := (ready_iff g).mp hready
  obtain rfl := h.fresh hsegv
  exact segment_computed c m (not_fatal_of_ok c m hok)

theorem segment_blank_or_computed (c : Control) (m : Metadata) : (segmentOf c m).Blank ∨ (segmentOf c m).Computed := by
  cases hfatal : fatalBit m
  · exact .inr (segment_computed c m hfatal)
  · exact .inl (segment_blank c m hfatal)

/-- SEG's results are sound, with DONE where an EXPORT has run on them. -/
theorem resultsSound_segment (c : Control) (m : Metadata) (done : Bool)
    (hdone : done = true → (segmentOf c m).ok = true) : ResultsSound c m (segmentOf c m) done where
  derived := segment_blank_or_computed c m
  okValid _ := rfl
  fresh _ := rfl
  doneComputed h := segment_computed c m (not_fatal_of_ok c m (hdone h))

theorem blank_invalidated {g : SegResults} (h : g.Blank) : ({ g with segv := false, ok := false } : SegResults).Blank :=
  ⟨fun r => (invalidated_region g r).trans (h.regions r), h.total⟩

theorem computed_invalidated {g : SegResults} (h : g.Computed) :
    ({ g with segv := false, ok := false } : SegResults).Computed :=
  ⟨fun r => by rw [invalidated_region]; exact h.regions r, h.fromZero, h.loopJoins, h.decayJoins, h.total⟩

/-- Stale results stay sound, whatever CTRL and the metadata become (R224). -/
theorem resultsSound_invalidated {c : Control} {m : Metadata} {g : SegResults} {done : Bool}
    (h : ResultsSound c m g done) (c' : Control) (m' : Metadata) :
    ResultsSound c' m' { g with segv := false, ok := false } done where
  derived := h.derived.imp blank_invalidated computed_invalidated
  okValid := nofun
  fresh := nofun
  doneComputed hdone := computed_invalidated (h.doneComputed hdone)

/-! ### The invariant while a command runs -/

/-- The invariant but for the race flag, which a running command may find set (R227). -/
structure State.Sound (s : State) : Prop where
  bufferForm : s.sb.wf = true
  accBits : s.stream.acc.toNat < 2 ^ (8 * s.stream.bcnt.toNat)
  results : ResultsSound s.control s.metadata s.seg s.sticky.done
  records : ∀ r ∈ s.stream.out, r.Legal s.params
  responses : ∀ r ∈ s.rsps, r.Legal

theorem inv_iff_sound (s : State) : s.Inv ↔ s.Sound ∧ s.sbRacing = false := by
  constructor
  · intro h
    exact ⟨⟨h.bufferForm, h.accBits, ⟨h.derived, h.okValid, h.fresh, h.doneComputed⟩, h.records, h.responses⟩,
      h.notRacing⟩
  · rintro ⟨h, hracing⟩
    exact ⟨h.bufferForm, hracing, h.accBits, h.results.derived, h.results.okValid, h.results.fresh,
      h.results.doneComputed, h.records, h.responses⟩

/-- Ready results of a sound state have counts below 2^24. -/
theorem State.Sound.count_lt {s : State} (h : s.Sound) (hready : s.seg.ready = true) (r : Region) :
    (s.seg.region r).n.toNat < 2 ^ 24 :=
  ((h.results.computed_of_ready hready).regions r).count

/-- A legal response more. -/
theorem responses_append {rs : List Response} {r : Response} (h : ∀ q ∈ rs, q.Legal) (hr : r.Legal) :
    ∀ q ∈ rs ++ [r], q.Legal := by
  intro q hq
  rcases List.mem_append.mp hq with hold | hnew
  · exact h q hold
  · rwa [List.mem_singleton.mp hnew]

/-- An error that ends its command keeps the state sound (R206). -/
theorem sound_raiseError {s : State} (h : s.Sound) (e : Code) (hcode : e = .illegal ∨ e = .notReady) :
    (raiseError e s).Sound where
  bufferForm := h.bufferForm
  accBits := h.accBits
  results := by
    rw [raiseError_sticky, stickySet_of_failed s.sticky e hcode]
    exact h.results
  records := h.records
  responses := responses_append h.responses (legal_error _ e (by rcases hcode with rfl | rfl <;> decide))

/-- A command that runs to its end keeps the state sound, whichever way it answers. -/
theorem Answers.sound {s t : State} {i : Instr} (hanswers : Answers s i t) (h : s.Sound) : t.Sound := by
  cases hanswers with
  | failed _ e hcode => exact sound_raiseError h e hcode
  | queried _ d => exact ⟨h.bufferForm, h.accBits, h.results, h.records, responses_append h.responses (legal_success d)⟩
  | packed _ d st _ hst =>
    exact ⟨h.bufferForm, hst.acc_lt h.accBits, h.results, hst.records_legal h.count_lt h.records,
      responses_append h.responses (legal_success d)⟩
  | cleared =>
    exact ⟨h.bufferForm, show 0 < 2 ^ 0 by decide,
      ⟨h.results.derived, h.results.okValid, h.results.fresh, nofun⟩, h.records,
      responses_append h.responses (legal_success _)⟩
  | wrote ra dat r =>
    rw [writeReg_frame]
    exact ⟨h.bufferForm, h.accBits, resultsSound_invalidated h.results _ _, h.records,
      responses_append h.responses (legal_success _)⟩
  | segmented =>
    exact ⟨h.bufferForm, h.accBits, resultsSound_segment _ _ _ nofun, h.records,
      responses_append h.responses (legal_segment _ _ _)⟩
  | exported st hok hst =>
    have results := resultsSound_segment s.control s.metadata true fun _ => hok
    exact ⟨h.bufferForm, hst.acc_lt (show 0 < 2 ^ 0 by decide), results,
      hst.records_legal (fun hready r => ((results.computed_of_ready hready).regions r).count) h.records,
      responses_append h.responses (legal_segment_of_ok _ _ _ hok)⟩
  | refused hok =>
    exact ⟨h.bufferForm, show 0 < 2 ^ 0 by decide, resultsSound_segment _ _ _ nofun, h.records,
      responses_append h.responses (legal_error _ _ (validationCode_ne_none _ _ hok))⟩

/-- A transferred pair keeps the state sound, and neither starts nor ends a race. -/
theorem runCommand_sound {cmd dat : Word} {s t : State} (hrun : runCommand cmd dat s = .next t) (h : s.Sound) :
    t.Sound ∧ t.params = s.params ∧ t.sbRacing = s.sbRacing := by
  rcases answers_of_runCommand hrun with ⟨i, answers⟩ | rfl
  · obtain ⟨-, hparams, -, -, hracing, -⟩ := answers.frame
    exact ⟨answers.sound h, hparams, hracing⟩
  · exact ⟨sound_raiseError h .illegal (.inl rfl), rfl, rfl⟩

/-- A stall keeps the state sound: it appends records that its command would have emitted (R221). -/
theorem stall_sound {s t : State} (h : s.Sound) (ht : ∀ r ∈ t.stream.out, r.Legal s.params) : (stall s t).Sound where
  bufferForm := h.bufferForm
  accBits := h.accBits
  results := h.results
  records := by
    intro r hr
    rcases List.mem_append.mp hr with hold | hnew
    · exact h.records r hold
    · exact ht r (List.mem_of_mem_drop (List.mem_of_mem_take hnew))
  responses := h.responses

/-! ### Reset and step -/

theorem resultsSound_reset (c : Control) (m : Metadata) : ResultsSound c m .reset false where
  derived := .inl ⟨fun r => by cases r <;> rfl, rfl⟩
  okValid := nofun
  fresh := nofun
  doneComputed := nofun

/-- A reset keeps the records and responses, which stay legal, and clears the rest (R42). -/
theorem applyReset_sound {s : State} (h : s.Sound) : (applyReset s).Sound where
  bufferForm := h.bufferForm
  accBits := show 0 < 2 ^ 0 by decide
  results := resultsSound_reset _ _
  records := h.records
  responses := h.responses

/-- Settles O45: at reset nothing has been computed, emitted or sent. -/
theorem resetStateMeetsInv : Obligations.ResetStateMeetsInv :=
  (inv_iff_sound State.reset).mpr
    ⟨⟨rfl, show 0 < 2 ^ 0 by decide, resultsSound_reset _ _, nofun, nofun⟩, rfl⟩

/-- Settles O46: a command keeps the state sound while the race flag is as its conduct says, and the flag is cleared
with the command's end or left alone by a stall; a host write keeps the buffer's form, and a reset is sound. -/
theorem stepKeepsInv : Obligations.StepKeepsInv := by
  intro s t hinv hstep
  obtain ⟨h, hstable⟩ := (inv_iff_sound s).mp hinv
  rw [inv_iff_sound]
  rcases step_cases s t hstep with
    rfl | ⟨cmd, dat, c, rest, u, -, -, hrun, rfl⟩ | ⟨a, b, rest, -, rfl⟩ | ⟨rest, -, rfl⟩
  · exact ⟨h, hstable⟩
  · have running : State.Sound { s with port := rest, sbRacing := !c.sbStable } :=
      ⟨h.bufferForm, h.accBits, h.results, h.records, h.responses⟩
    obtain ⟨hu, hparams, hracing⟩ := runCommand_sound hrun running
    cases c.completes
    · have waiting : State.Sound { s with port := rest } :=
        ⟨h.bufferForm, h.accBits, h.results, h.records, h.responses⟩
      exact ⟨stall_sound waiting (hparams ▸ hu.records), hstable⟩
    · cases hs : c.sbStable
      · exact ⟨⟨hu.bufferForm, hu.accBits, hu.results, hu.records, hu.responses⟩, rfl⟩
      · exact ⟨hu, by rw [hs] at hracing; exact hracing⟩
  · exact ⟨⟨wf_write s.sb a.toNat b a.isLt h.bufferForm, h.accBits, h.results, h.records, h.responses⟩, hstable⟩
  · exact ⟨applyReset_sound ⟨h.bufferForm, h.accBits, h.results, h.records, h.responses⟩, rfl⟩

end Sys2Proof.Machine
end

section
/-! PROOFS of what reaches what: the live CTRL no region command (10_state.md section 3), bytes outside its range no
REGION (R54), sample bytes nothing but DATA words and ACC (R227); and how many records a command emits (R229). -/

namespace Sys2Proof.Machine

/-! ### The live CTRL and the region commands -/

/-- The region commands read of CTRL nothing: their effects behind the readiness check differ in CTRL alone. -/
theorem exec_of_control (s : State) (c : Control) (r : Region) (i : Instr) (hi : i ∈ [.pad r, .hdr r, .region r]) :
    ∃ d st, exec i s = .next (whenReady s (complete d { s with stream := st }))
      ∧ exec i { s with control := c }
          = .next (whenReady { s with control := c } (complete d { s with control := c, stream := st })) := by
  simp only [List.mem_cons, List.not_mem_nil, or_false] at hi
  rcases hi with rfl | rfl | rfl
  · exact ⟨_, _, rfl, rfl⟩
  · exact ⟨_, _, rfl, rfl⟩
  · have body : regionBody { s with control := c } r s.stream = regionBody s r s.stream :=
      regionBody_congr _ _ r _ rfl rfl fun a => memRead_congr _ _ a rfl rfl rfl
    refine ⟨_, _, rfl, ?_⟩
    rw [← body]
    rfl

/-- Settles O53: the readiness check does not read CTRL either. -/
theorem liveModeReachesNoRegionCommand : Obligations.LiveModeReachesNoRegionCommand := by
  intro s c r i hi
  obtain ⟨d, st, hexec, hexec'⟩ := exec_of_control s c r i hi
  refine ⟨_, hexec, ?_⟩
  rw [hexec']
  unfold whenReady
  split <;> rfl

/-! ### REGION and its range -/

/-- A region's sample reads stay in its range, which does not wrap (R54), so they are the same from any buffer that
agrees there. -/
theorem readSample_of_agree (s : State) (m : Memory) (r : Region) (hstable : s.sbRacing = false)
    (hcomputed : (s.seg.region r).Computed s.seg.smode)
    (hagree : ∀ a, (s.seg.region r).rb.toNat ≤ a → a < (s.seg.region r).re.toNat → m.read a = s.sb.read a)
    (i : Nat) (hi : i < (s.seg.region r).n.toNat) :
    readSample { s with sb := m } (s.seg.region r).rb i = readSample s (s.seg.region r).rb i := by
  have hrange := hcomputed.range
  have hre := (s.seg.region r).re.isLt
  rw [readSample_eq s _ i hstable (by omega), readSample_eq { s with sb := m } _ i hstable (by omega)]
  exact congrArg₂ (fun hi lo : Byte => hi ++ lo) (hagree _ (by omega) (by omega)) (hagree _ (by omega) (by omega))

/-- The bytes of a region come from its range (R54, R170). -/
theorem regionBytes_of_agree (s : State) (m : Memory) (r : Region) (hstable : s.sbRacing = false)
    (hcomputed : (s.seg.region r).Computed s.seg.smode)
    (hagree : ∀ a, (s.seg.region r).rb.toNat ≤ a → a < (s.seg.region r).re.toNat → m.read a = s.sb.read a) :
    regionBytes { s with sb := m } r = regionBytes s r := by
  have samples : ∀ i ∈ List.range (s.seg.region r).n.toNat,
      sampleBytes s.seg.smode (readSample { s with sb := m } (s.seg.region r).rb i)
        = sampleBytes s.seg.smode (readSample s (s.seg.region r).rb i) := fun i hi => by
    rw [readSample_of_agree s m r hstable hcomputed hagree i (List.mem_range.mp hi)]
  exact congrArg (· ++ _) (List.flatMap_congr samples)

/-- Settles O54: in a ready state of the invariant the region is computed, so its bytes come from its range, and
REGION reads nothing else of the buffer. -/
theorem regionReadsOnlyItsRange : Obligations.RegionReadsOnlyItsRange := by
  intro s m r hinv hsegv hok hagree
  have hready := (ready_iff s.seg).mpr ⟨hsegv, hok⟩
  obtain ⟨sound, hstable⟩ := (inv_iff_sound s).mp hinv
  have computed := (sound.results.computed_of_ready hready).regions r
  have body : regionBody { s with sb := m } r s.stream = regionBody s r s.stream := by
    rw [regionBody_eq, regionBody_eq, regionBytes_of_agree s m r hstable computed hagree]
    rfl
  refine ⟨_, congrArg Host.Outcome.next (whenReady_of_ready s _ hready), ?_⟩
  rw [← body]
  exact congrArg Host.Outcome.next (whenReady_of_ready { s with sb := m } _ hready)

/-! ### How many records a command emits -/

/-- At most three bytes are pending, so `4 * k` more close at most `k` words. -/
theorem pushAll_out_length_le (bs : List Byte) (st : PackedStream) (k : Nat) (h : bs.length ≤ 4 * k) :
    (pushAll bs st).out.length ≤ st.out.length + k := by
  have hbcnt : st.bcnt.toNat < 4 := st.bcnt.isLt
  rw [pushAll_out_length]
  omega

/-- A command behind the readiness check emits no more records than its effect. -/
theorem whenReady_out_length_le (s t : State) (k : Nat) (h : t.stream.out.length ≤ s.stream.out.length + k) :
    (whenReady s t).stream.out.length ≤ s.stream.out.length + k := by
  rcases whenReady_cases s t with ⟨-, hw⟩ | ⟨-, hw⟩ <;> rw [hw]
  · exact h
  · exact Nat.le_add_right _ _

/-- In a state of the invariant a pad is at most 127 (R120). -/
theorem pad_le_of_inv (s : State) (h : s.Inv) (r : Region) : (s.seg.region r).pad.toNat ≤ 127 := by
  rcases h.derived with blank | computed
  · rw [blank.regions r]
    exact Nat.zero_le 127
  · rw [(computed.regions r).padded]
    exact Nat.le_of_lt_succ (padCount_lt _)

/-- Settles O56: a command that leaves the packer alone emits nothing, one that pushes a sample or a byte closes at
most one word, a header is one record, and a pad of at most 127 bytes closes at most 32 words. -/
theorem recordsPerCommandBounded : Obligations.RecordsPerCommandBounded := by
  intro i s t hinv hexec hregion hrun
  have silent := (registerGroupsWrittenOnlyBy i s t hexec).2.2
  cases i with
  | nop | wreg | rreg | seg | padq | wcq | encq =>
    rw [silent trivial]
    exact Nat.le_succ _
  | clr =>
    obtain rfl := Host.Outcome.next.inj hexec
    exact Nat.le_succ _
  | pcm x =>
    obtain rfl := Host.Outcome.next.inj hexec
    exact pushAll_out_length_le [lo8 x, hi8 x] s.stream 1 (show 2 ≤ 4 by decide)
  | mulaw x =>
    obtain rfl := Host.Outcome.next.inj hexec
    exact pushAll_out_length_le [mulawByte x] s.stream 1 (show 1 ≤ 4 by decide)
  | pushb b =>
    obtain rfl := Host.Outcome.next.inj hexec
    exact pushAll_out_length_le [b] s.stream 1 (show 1 ≤ 4 by decide)
  | pad r =>
    obtain rfl := Host.Outcome.next.inj hexec
    have hpad := pad_le_of_inv s hinv r
    have pushed := pushAll_out_length_le (List.replicate (s.seg.region r).pad.toNat 0x00#8) s.stream 32
      (by rw [List.length_replicate]; omega)
    rw [← pushZeros_eq] at pushed
    exact whenReady_out_length_le s _ 32 pushed
  | hdr r =>
    obtain rfl := Host.Outcome.next.inj hexec
    refine whenReady_out_length_le s _ 1 (Nat.le_of_eq ?_)
    rw [complete_stream, emitHeader_out, List.length_append, List.length_singleton]
  | region r => exact absurd rfl (hregion r)
  | exportRun => exact absurd rfl hrun

end Sys2Proof.Machine
end

section
/-! PROOFS of 70_reset_and_hazards.md section 2: whatever the sample bytes are, stable or racing, they reach DATA
words and ACC alone (R227). -/

namespace Sys2Proof.Machine

/-! ### Packers that differ in sample bytes alone -/

/-- The relation between two packers that have been given as many bytes and the same headers: everything but ACC and
the words of the DATA records is the same. -/
structure SameShape (st u : PackedStream) : Prop where
  out_eq : u.out.map OutRecord.shape = st.out.map OutRecord.shape
  bcnt_eq : u.bcnt = st.bcnt
  lcnt_eq : u.lcnt = st.lcnt

namespace SameShape

variable {st u : PackedStream}

theorem refl (st : PackedStream) : SameShape st st := ⟨rfl, rfl, rfl⟩

theorem out_length (h : SameShape st u) : u.out.length = st.out.length := by
  have := congrArg List.length h.out_eq
  rwa [List.length_map, List.length_map] at this

/-- Whether a push closes a word, and on which line, does not depend on its byte. -/
theorem after_push (h : SameShape st u) (b c : Byte) : SameShape (push b st) (push c u) := by
  by_cases hfull : st.bcnt = 3#2
  · rw [push_of_full b st hfull, push_of_full c u (h.bcnt_eq.trans hfull)]
    refine ⟨?_, rfl, ?_⟩
    · simp only [emit_out, List.map_append, List.map_singleton, h.out_eq, h.lcnt_eq, OutRecord.shape]
    · simp only [emit_lcnt, h.lcnt_eq]
  · rw [push_of_room b st hfull, push_of_room c u (h.bcnt_eq ▸ hfull)]
    exact ⟨h.out_eq, congrArg (· + 1#2) h.bcnt_eq, h.lcnt_eq⟩

/-- As many pushes, whatever their bytes. -/
theorem after_pushAll (h : SameShape st u) (bs cs : List Byte) (hlen : bs.length = cs.length) :
    SameShape (pushAll bs st) (pushAll cs u) := by
  induction bs generalizing cs st u with
  | nil =>
    obtain rfl := List.length_eq_zero_iff.mp hlen.symm
    exact h
  | cons b bs ih =>
    obtain ⟨c, cs, rfl⟩ := List.exists_cons_of_length_eq_add_one hlen.symm
    exact ih (h.after_push b c) cs (Nat.succ.inj hlen)

/-- Header records are the same where the segmenter results and the parameter are. -/
theorem after_emitHeader (h : SameShape st u) (s t : State) (r : Region) (hseg : t.seg = s.seg)
    (hparams : t.params = s.params) : SameShape (emitHeader s r st) (emitHeader t r u) := by
  refine ⟨?_, h.bcnt_eq, ?_⟩
  · simp only [emitHeader_out, headerRecord, List.map_append, h.out_eq, h.lcnt_eq, hseg, hparams]
  · simp only [emitHeader, emit_lcnt, h.lcnt_eq, hparams]

/-- The body of REGION, whatever its samples are. -/
theorem after_regionBody (h : SameShape st u) (s t : State) (r : Region) (hseg : t.seg = s.seg)
    (hparams : t.params = s.params) : SameShape (regionBody s r st) (regionBody t r u) := by
  rw [regionBody_eq, regionBody_eq]
  refine (h.after_emitHeader s t r hseg hparams).after_pushAll _ _ ?_
  rw [regionBytes_length, regionBytes_length, hseg]

end SameShape

/-! ### Commands under another buffer -/

/-- The state with another sample buffer, race flag and free-value counter. -/
def withSamples (m : Memory) (racing : Bool) (k : Nat) (s : State) : State :=
  { s with sb := m, sbRacing := racing, freeCount := k }

/-- Two results of one command, the second under another buffer: they differ in the buffer and in sample bytes alone.
-/
def SameButSamples (m : Memory) (racing : Bool) (k : Nat) (t u : State) : Prop :=
  ∃ st, SameShape t.stream st ∧ u = withSamples m racing k { t with stream := st }

theorem sameButSamples_self (m : Memory) (racing : Bool) (k : Nat) (t : State) :
    SameButSamples m racing k t (withSamples m racing k t) :=
  ⟨t.stream, .refl _, rfl⟩

theorem writeReg_withSamples (m : Memory) (racing : Bool) (k : Nat) (v : Word) (s : State) (r : RegName) :
    writeReg v (withSamples m racing k s) r = withSamples m racing k (writeReg v s r) := by
  cases r <;> rfl

theorem readReg_withSamples (m : Memory) (racing : Bool) (k : Nat) (s : State) (r : RegName) :
    readReg (withSamples m racing k s) r = readReg s r := by
  cases r <;> rfl

/-- The readiness check reads none of the three, so it lets both effects through or neither. -/
theorem whenReady_sameButSamples (m : Memory) (racing : Bool) (k : Nat) (s t u : State)
    (h : SameButSamples m racing k t u) :
    SameButSamples m racing k (whenReady s t) (whenReady (withSamples m racing k s) u) := by
  unfold whenReady
  show SameButSamples m racing k (if s.seg.ready then t else raiseError .notReady s)
    (if s.seg.ready then u else raiseError .notReady (withSamples m racing k s))
  split
  · exact h
  · exact sameButSamples_self m racing k (raiseError .notReady s)

/-- The three regions of an EXPORT, whatever their samples are. -/
theorem exportBody_sameShape (m : Memory) (racing : Bool) (k : Nat) (s : State) :
    SameShape (exportBody (segEffects (clearEffects s)))
      (exportBody (segEffects (clearEffects (withSamples m racing k s)))) := by
  have region := fun r st u (h : SameShape st u) => h.after_regionBody (segEffects (clearEffects s))
    (segEffects (clearEffects (withSamples m racing k s))) r rfl rfl
  exact region .decay _ _ (region .loop _ _ (region .attack _ _ (SameShape.refl s.stream.clear)))

/-- Every command reads the buffer in the bytes that it packs alone. -/
theorem exec_sameButSamples (m : Memory) (racing : Bool) (k : Nat) (i : Instr) (s : State) :
    ∃ t u, exec i s = .next t ∧ exec i (withSamples m racing k s) = .next u ∧ SameButSamples m racing k t u := by
  cases i with
  | nop | clr | seg | padq | wcq | encq | pcm | mulaw | pushb =>
    exact ⟨_, _, rfl, rfl, sameButSamples_self m racing k _⟩
  | wreg ra dat =>
    by_cases hra : ra ∈ writableAddrs
    · obtain ⟨r, hrw, rfl⟩ := (mem_writableAddrs_iff ra).mp hra
      refine ⟨_, _, execWreg_addr_rw r hrw dat s, execWreg_addr_rw r hrw dat _, ?_⟩
      rw [writeReg_withSamples]
      exact sameButSamples_self m racing k (complete 0#32 (invalidateSeg (writeReg dat s r)))
    · exact ⟨_, _, execWreg_refused ra hra dat s, execWreg_refused ra hra dat _, sameButSamples_self m racing k _⟩
  | rreg ra =>
    by_cases hra : ∃ r : RegName, r.addr = ra
    · obtain ⟨r, rfl⟩ := hra
      refine ⟨_, _, execRreg_addr r s, execRreg_addr r _, ?_⟩
      rw [readReg_withSamples]
      exact sameButSamples_self m racing k (complete (readReg s r) s)
    · have hnone : ∀ r : RegName, r.addr ≠ ra := fun r h => hra ⟨r, h⟩
      exact ⟨_, _, execRreg_refused ra hnone s, execRreg_refused ra hnone _, sameButSamples_self m racing k _⟩
  | pad | hdr =>
    exact ⟨_, _, rfl, rfl, whenReady_sameButSamples m racing k s _ _ (sameButSamples_self m racing k _)⟩
  | region r =>
    have body := (SameShape.refl s.stream).after_regionBody s (withSamples m racing k s) r rfl rfl
    refine ⟨_, _, rfl, rfl, whenReady_sameButSamples m racing k s _ _ ⟨_, body, ?_⟩⟩
    rw [recordsSince, recordsSince, ← body.out_length]
    rfl
  | exportRun =>
    rcases execExport_cases s with ⟨hok, ran⟩ | ⟨hok, ran⟩ <;>
      rcases execExport_cases (withSamples m racing k s) with ⟨hok', ran'⟩ | ⟨hok', ran'⟩
    · exact ⟨_, _, ran, ran', _, exportBody_sameShape m racing k s, rfl⟩
    · exact absurd (hok.symm.trans hok') (by decide)
    · exact absurd (hok.symm.trans hok') (by decide)
    · exact ⟨_, _, ran, ran', sameButSamples_self m racing k _⟩

/-- Settles O55: the two results are related as `SameButSamples` says, field by field. -/
theorem sampleBytesReachOnlyDataWords : Obligations.SampleBytesReachOnlyDataWords := by
  intro i s m racing k
  obtain ⟨t, u, hexec, hexec', st, shape, rfl⟩ := exec_sameButSamples m racing k i s
  exact ⟨t, _, hexec, hexec', shape.out_eq, shape.bcnt_eq, shape.lcnt_eq, rfl⟩

end Sys2Proof.Machine
end
